-- ==== Sys2Proof/Word.lean ====
section
/-! DEFINITION. The word types of the machine (00_scope.md rule R5, P1 and P3; 10_state.md rules R21, R29, R32). -/

namespace Sys2Proof

/-- One byte of memory (R32). -/
abbrev Byte := BitVec 8

/-- An `XLEN`-bit value: a general-purpose register, an address, the program counter (R5 P1, R21). -/
abbrev Word := BitVec 32

/-- A `DLEN`-bit value: a SIMD and floating-point register (R5 P3, R29). -/
abbrev DWord := BitVec 64

end Sys2Proof
end

