-- ==== Sys2Proof/Syntax.lean ====
section
/-! DEFINITION. The instruction as syntax: six encodings over one set of operand fields (30_encoding.md rules R60 to R63). -/

namespace Sys2Proof

/-- The two instruction sets of the page (00_scope.md rule R2). -/
inductive InstrSet where
  | a32
  | t32
  deriving DecidableEq, Repr

/-- The operand fields every encoding has, as the tables of 30_encoding.md rules R61 and R62 lay them out.
`size` is no operand: it tells the encodings apart (R64). -/
structure Fields where
  /-- `D`, bit 22 -/
  dBit : BitVec 1
  /-- `Rn`, bits 19:16 -/
  rn : BitVec 4
  /-- `Vd`, bits 15:12 -/
  vd : BitVec 4
  /-- `index_align`, bits 7:4 -/
  indexAlign : BitVec 4
  /-- `Rm`, bits 3:0 -/
  rm : BitVec 4
  deriving DecidableEq, Repr

/-- VLD3 (single 3-element structure to one lane), one constructor per row of opcode_table.json (R80 to R85).
The fields are kept as the word has them, because a word that the decode of its encoding calls UNDEFINED or
UNPREDICTABLE is still this instruction and has outcomes of its own (R87, R93, R94). -/
inductive Instr where
  /-- A1: VLD3.8, A32 (R80) -/
  | vld3A1 (f : Fields)
  /-- A2: VLD3.16, A32 (R81) -/
  | vld3A2 (f : Fields)
  /-- A3: VLD3.32, A32 (R82) -/
  | vld3A3 (f : Fields)
  /-- T1: VLD3.8, T32 (R83) -/
  | vld3T1 (f : Fields)
  /-- T2: VLD3.16, T32 (R84) -/
  | vld3T2 (f : Fields)
  /-- T3: VLD3.32, T32 (R85) -/
  | vld3T3 (f : Fields)
  deriving DecidableEq, Repr

end Sys2Proof
end

