-- ==== Sys2Proof/WellFormed.lean ====
section
/-! DEFINITION. The admitted subset (92_eei_decisions.md D29): every field value that is neither UNDEFINED
(30_encoding.md rule R69) nor UNPREDICTABLE (rule R71). An instruction outside it still has a meaning; see
40_vld3_one_lane.md rules R87, R93 and R94. The checks are written from the columns of rule R65's table and not from
the decode, so that the two readings can be compared. -/

namespace Sys2Proof

/-- `UInt(D:Vd)` (30_encoding.md rule R67). -/
def Fields.firstReg (f : Fields) : Nat := 16 * f.dBit.toNat + f.vd.toNat

/-- The column "d max" of rule R65's table: 29 when single-spaced, 27 when double-spaced. -/
def Fields.inRange (f : Fields) (doubleSpaced : Bool) : Bool :=
  decide (f.firstReg ≤ if doubleSpaced then 27 else 29)

/-- `n == 15` is UNPREDICTABLE (rule R71 (a)). -/
def Fields.baseOk (f : Fields) : Bool := decide (f.rn ≠ 15#4)

/-- A1 and T1: bit 0 of `index_align` must be zero; always single-spaced. -/
def Fields.wellFormed8 (f : Fields) : Bool :=
  !f.indexAlign.getLsbD 0 && f.baseOk && f.inRange false

/-- A2 and T2: bit 0 of `index_align` must be zero; bit 1 chooses the spacing. -/
def Fields.wellFormed16 (f : Fields) : Bool :=
  !f.indexAlign.getLsbD 0 && f.baseOk && f.inRange (f.indexAlign.getLsbD 1)

/-- A3 and T3: bits 1:0 of `index_align` must be zero; bit 2 chooses the spacing. -/
def Fields.wellFormed32 (f : Fields) : Bool :=
  !f.indexAlign.getLsbD 0 && !f.indexAlign.getLsbD 1 && f.baseOk && f.inRange (f.indexAlign.getLsbD 2)

/-- The instruction is a fully valid form, in the words of 40_vld3_one_lane.md rule R87. -/
def Instr.wellFormed : Instr → Bool
  | .vld3A1 f => f.wellFormed8
  | .vld3A2 f => f.wellFormed16
  | .vld3A3 f => f.wellFormed32
  | .vld3T1 f => f.wellFormed8
  | .vld3T2 f => f.wellFormed16
  | .vld3T3 f => f.wellFormed32

end Sys2Proof
end

