-- ==== Sys2Proof/Decode.lean ====
section
/-! DEFINITION. From bytes to an instruction and back (30_encoding.md), the decode of the operand fields that each
encoding prints (40_vld3_one_lane.md rules R80 to R85), and the assembler templates (30_encoding.md rule R73). -/

namespace Sys2Proof

/-! ### The opcode table (30_encoding.md rule R68) -/

/-- One row of the opcode table: the pattern `w` is this row's when `w AND mask` is `pattern`. -/
structure OpcodeRow where
  set : InstrSet
  mask : Word
  pattern : Word
  make : Fields → Instr

/-- The six rows of rule R68's table. -/
def opcodeRows : List OpcodeRow :=
  [⟨.a32, 0xFFB00F00#32, 0xF4A00200#32, .vld3A1⟩,
   ⟨.a32, 0xFFB00F00#32, 0xF4A00600#32, .vld3A2⟩,
   ⟨.a32, 0xFFB00F00#32, 0xF4A00A00#32, .vld3A3⟩,
   ⟨.t32, 0xFFB00F00#32, 0xF9A00200#32, .vld3T1⟩,
   ⟨.t32, 0xFFB00F00#32, 0xF9A00600#32, .vld3T2⟩,
   ⟨.t32, 0xFFB00F00#32, 0xF9A00A00#32, .vld3T3⟩]

/-- The operand fields of a 32-bit pattern (rules R61 and R62). -/
def fieldsOf (w : Word) : Fields where
  dBit := w.extractLsb' 22 1
  rn := w.extractLsb' 16 4
  vd := w.extractLsb' 12 4
  indexAlign := w.extractLsb' 4 4
  rm := w.extractLsb' 0 4

/-- The instruction of a 32-bit pattern (the A32 word, or `hw1 ++ hw2` in T32), if it is one of the six (rule R68). -/
def decodeWord (set : InstrSet) (w : Word) : Option Instr :=
  match opcodeRows.find? (fun r => r.set = set && w &&& r.mask = r.pattern) with
  | some r => some (r.make (fieldsOf w))
  | none => none

/-! ### Bytes (20_memory.md rule R41, 30_encoding.md rules R60 and R72) -/

/-- Why the decoder reads no instruction of this spec from some bytes (30_encoding.md rules R70 and R72). -/
inductive DecodeReject where
  /-- fewer than four bytes (every encoding is four bytes, rule R60) -/
  | truncated
  /-- T32: the first halfword is a 16-bit instruction (rule R72), which is outside this spec -/
  | narrow
  /-- bits 11:10 are `0b11`: "VLD3 (single 3-element structure to all lanes)" (rule R70) -/
  | allLanes
  /-- any other pattern that matches none of the six (rule R70, D22) -/
  | otherInstruction
  deriving DecidableEq, Repr

/-- The 32-bit pattern that four bytes, lowest address first, spell in an instruction set (rule R41). -/
def patternOf (set : InstrSet) (b0 b1 b2 b3 : Byte) : Word :=
  match set with
  | .a32 => b3 ++ b2 ++ b1 ++ b0
  | .t32 => b1 ++ b0 ++ b3 ++ b2

/-- Bits 15:11 of a T32 first halfword that start a 32-bit instruction (rule R72). -/
def startsWide (w : Word) : Bool :=
  w.extractLsb' 27 5 = 0b11101#5 || w.extractLsb' 27 5 = 0b11110#5 || w.extractLsb' 27 5 = 0b11111#5

/-- The pattern of "VLD3 (single 3-element structure to all lanes)", which the decodes SEE (rule R70). -/
def isAllLanes (set : InstrSet) (w : Word) : Bool :=
  w &&& 0xFFB00F00#32 = match set with
    | .a32 => 0xF4A00E00#32
    | .t32 => 0xF9A00E00#32

/-- Decode the instruction at the head of a list of bytes; the bytes after it are returned. Total: every list of bytes
gives an instruction or a rejection by name. -/
def decode (set : InstrSet) : List Byte → Except DecodeReject (Instr × List Byte)
  | b0 :: b1 :: b2 :: b3 :: rest =>
    let w := patternOf set b0 b1 b2 b3
    match decodeWord set w with
    | some i => .ok (i, rest)
    | none =>
      if set = .t32 && !startsWide w then .error .narrow
      else if isAllLanes set w then .error .allLanes
      else .error .otherInstruction
  | _ => .error .truncated

/-! ### The encoder -/

/-- The instruction set an encoding belongs to (00_scope.md rule R2). -/
def Instr.set : Instr → InstrSet
  | .vld3A1 _ | .vld3A2 _ | .vld3A3 _ => .a32
  | .vld3T1 _ | .vld3T2 _ | .vld3T3 _ => .t32

/-- The operand fields of an instruction. -/
def Instr.fields : Instr → Fields
  | .vld3A1 f | .vld3A2 f | .vld3A3 f | .vld3T1 f | .vld3T2 f | .vld3T3 f => f

/-- The cells of the diagrams from left to right (rules R61 and R62): bits 31:24, `1`, `D`, `10`, `Rn`, `Vd`, `size`,
`10`, `index_align`, `Rm`. -/
def encodeCells (top : BitVec 8) (size : BitVec 2) (f : Fields) : Word :=
  top ++ 1#1 ++ f.dBit ++ 0b10#2 ++ f.rn ++ f.vd ++ size ++ 0b10#2 ++ f.indexAlign ++ f.rm

/-- The 32-bit pattern of an instruction. -/
def encodeWord : Instr → Word
  | .vld3A1 f => encodeCells 0b11110100#8 0b00#2 f
  | .vld3A2 f => encodeCells 0b11110100#8 0b01#2 f
  | .vld3A3 f => encodeCells 0b11110100#8 0b10#2 f
  | .vld3T1 f => encodeCells 0b11111001#8 0b00#2 f
  | .vld3T2 f => encodeCells 0b11111001#8 0b01#2 f
  | .vld3T3 f => encodeCells 0b11111001#8 0b10#2 f

/-- A 32-bit pattern as it lies in memory, lowest address first (20_memory.md rule R41). -/
def layOut (set : InstrSet) (w : Word) : List Byte :=
  match set with
  | .a32 => [w.extractLsb' 0 8, w.extractLsb' 8 8, w.extractLsb' 16 8, w.extractLsb' 24 8]
  | .t32 => [w.extractLsb' 16 8, w.extractLsb' 24 8, w.extractLsb' 0 8, w.extractLsb' 8 8]

/-- The bytes of an instruction in memory. -/
def encode (i : Instr) : List Byte := layOut i.set (encodeWord i)

/-! ### The opcode table's words -/

/-- The instruction set whose table rows a 32-bit number can belong to: the rows of the two sets differ in bits 31:24
(rule R62), so a number is a row's in at most one of them. -/
def tableSet (w : Word) : Option InstrSet :=
  if (decodeWord .a32 w).isSome then some .a32
  else if (decodeWord .t32 w).isSome then some .t32
  else none

/-- What the decoder reads from an instruction whose bits are `w`, numbered as opcode_table.json numbers them: the A32
word, or `hw1 ++ hw2`. The bits are laid out in memory as the hardware stores them and given to `decode`. -/
def decodeTableWord (nbits w : Nat) : Option Instr :=
  let p : Word := BitVec.ofNat 32 (w % 2 ^ nbits)
  match tableSet p with
  | none => none
  | some set =>
    match decode set (layOut set p) with
    | .ok (i, _) => some i
    | .error _ => none

/-! ### The decode pseudocode of the six encodings (30_encoding.md rules R64 to R67, 40 rules R80 to R85) -/

/-- The variables the decode pseudocode of every encoding computes. Numbers are mathematical integers (00_scope.md rule
R7): `d3` can exceed 31. -/
structure DecodeVars where
  ebytes : Nat
  index : Nat
  inc : Nat
  d : Nat
  n : Fin 16
  m : Fin 16
  deriving DecidableEq, Repr

/-- "d2 = d + inc" -/
def DecodeVars.d2 (v : DecodeVars) : Nat := v.d + v.inc
/-- "d3 = d2 + inc" -/
def DecodeVars.d3 (v : DecodeVars) : Nat := v.d2 + v.inc
/-- "wback = (m != 15)" -/
def DecodeVars.wback (v : DecodeVars) : Bool := v.m ≠ 15
/-- "register_index = (m != 15 && m != 13)" -/
def DecodeVars.registerIndex (v : DecodeVars) : Bool := v.m ≠ 15 && v.m ≠ 13
/-- The element size in bits (30_encoding.md rule R64). -/
def DecodeVars.esize (v : DecodeVars) : Nat := 8 * v.ebytes

/-- What the decode of an encoding makes of the operand fields. -/
inductive Decoded where
  /-- UNDEFINED by `index_align` (rule R69) -/
  | undefined
  /-- `n == 15`: UNPREDICTABLE (rules R71 (a), R93); also when `d3 > 31` as well -/
  | unpredictableN15
  /-- `d3 > 31` with `n != 15`: CONSTRAINED UNPREDICTABLE (rules R71 (b), R94) -/
  | unpredictableD3 (v : DecodeVars)
  /-- a fully valid form: `n != 15` and `d3 ≤ 31` -/
  | valid (v : DecodeVars)
  deriving DecidableEq, Repr

/-- "if n == 15 || d3 > 31 then UNPREDICTABLE", with `n == 15` governing when both hold (rule R71). -/
def classify (v : DecodeVars) : Decoded :=
  if v.n = 15 then .unpredictableN15
  else if v.d3 > 31 then .unpredictableD3 v
  else .valid v

/-- The variables that do not depend on the element size (rules R66 and R67), with the others as given. -/
def Fields.vars (f : Fields) (ebytes index inc : Nat) : DecodeVars where
  ebytes := ebytes
  index := index
  inc := inc
  d := (f.dBit ++ f.vd).toNat
  n := f.rn.toFin
  m := f.rm.toFin

/-- The decode printed under A1 and T1 (rules R80 and R83). -/
def Fields.decode8 (f : Fields) : Decoded :=
  if f.indexAlign.getLsbD 0 then .undefined
  else classify (f.vars 1 (f.indexAlign.extractLsb' 1 3).toNat 1)

/-- The decode printed under A2 and T2 (rules R81 and R84). -/
def Fields.decode16 (f : Fields) : Decoded :=
  if f.indexAlign.getLsbD 0 then .undefined
  else classify (f.vars 2 (f.indexAlign.extractLsb' 2 2).toNat (if f.indexAlign.getLsbD 1 then 2 else 1))

/-- The decode printed under A3 and T3 (rules R82 and R85). -/
def Fields.decode32 (f : Fields) : Decoded :=
  if f.indexAlign.extractLsb' 0 2 ≠ 0b00#2 then .undefined
  else classify (f.vars 4 (f.indexAlign.extractLsb' 3 1).toNat (if f.indexAlign.getLsbD 2 then 2 else 1))

/-- The decode of an instruction, the source's `EncodingSpecificOperations()` (00_scope.md rule R11). -/
def Instr.decoded : Instr → Decoded
  | .vld3A1 f | .vld3T1 f => f.decode8
  | .vld3A2 f | .vld3T2 f => f.decode16
  | .vld3A3 f | .vld3T3 f => f.decode32

/-! ### Assembler templates (30_encoding.md rules R73 and R74); they carry no semantics -/

/-- The three addressing forms of the templates. -/
inductive AsmPost where
  /-- `[<Rn>]` -/
  | none
  /-- `[<Rn>]!` -/
  | bang
  /-- `[<Rn>], <Rm>` -/
  | reg (m : Nat)
  deriving DecidableEq, Repr

/-- One line of assembler text as data. -/
structure Asm where
  /-- `<size>`: 8, 16 or 32 -/
  size : Nat
  /-- the numbers of the three D registers of `<list>` -/
  list : List Nat
  /-- the lane `<index>` -/
  lane : Nat
  /-- `<Rn>` -/
  base : Nat
  post : AsmPost
  deriving DecidableEq, Repr

/-- The template of a valid form; a form that is UNDEFINED or UNPREDICTABLE has none. -/
def Instr.asm (i : Instr) : Option Asm :=
  match i.decoded with
  | .valid v => some
      { size := v.esize
        list := [v.d, v.d2, v.d3]
        lane := v.index
        base := v.n.val
        post := if v.wback then (if v.registerIndex then .reg v.m.val else .bang) else .none }
  | _ => none

/-- The text of the register list, without its braces. -/
def asmList (lane : Nat) : List Nat → String
  | [] => ""
  | [r] => "D" ++ toString r ++ "[" ++ toString lane ++ "]"
  | r :: rs => "D" ++ toString r ++ "[" ++ toString lane ++ "], " ++ asmList lane rs

/-- The text of a line with the condition suffix `cond` (empty or one of 10_state.md rule R25). The two characters
numbered 123 and 125 are the braces of the list. -/
def Asm.text (a : Asm) (cond : String) : String :=
  "VLD3" ++ cond ++ "." ++ toString a.size ++ " " ++ String.singleton (Char.ofNat 123) ++ asmList a.lane a.list
    ++ String.singleton (Char.ofNat 125) ++ ", [R" ++ toString a.base ++ "]"
    ++ match a.post with
      | .none => ""
      | .bang => "!"
      | .reg m => ", R" ++ toString m

end Sys2Proof
end

