-- ==== Sys2Proof/Config.lean ====
section
/-! DEFINITION. What the implementation fixes and what the spec leaves free (00_scope.md rule R5, 92_eei_decisions.md).
The parameters the spec marks OPEN (P4 to P7) are functions of the state; they stand as plain data in `State.sys`, so a
statement over every state is a statement over every value of them (notes/assumptions/1 to 4). Here stand the policy P9
and the free values (`Config.undefinedState`, which is a whole state, stands below State). `UNPRED_N15_POLICY` (P10), `COND_FAILED_BAD_ENCODING` (P11) and `ADDR_WRAP_POLICY` (P14) have one
value each and need no definition; nothing rests on `ARCH_VERSION` (P12). -/

namespace Sys2Proof

/-- The two kinds of Data Abort (60_exceptions.md rule R113). -/
inductive AbortKind where
  | alignment
  | other
  deriving DecidableEq, Repr, Inhabited

/-- The answers of `AdvSIMDCheck` (00_scope.md rule R5, P6). -/
inductive EnableAnswer where
  | enabled
  | undefined
  | hypTrap
  deriving DecidableEq, Repr, Inhabited

/-- The answers of `MemAdmit` (00_scope.md rule R5, P7; 90_conflicts.md C9). -/
inductive AdmitAnswer where
  | ok
  | abort
  | notAdmitted
  deriving DecidableEq, Repr, Inhabited

/-- `CU_D3_POLICY` (00_scope.md rule R5, P9). -/
inductive D3Policy where
  | refuse
  | allThree
  deriving DecidableEq, Repr

/-- One outcome that 40_vld3_one_lane.md rule R94 admits when `d3 > 31` under the policy `all_three`. `abortAt` is the
Data Abort rule R94 adds to behaviour (c); `offset` counts bytes from the base address and is taken modulo the size of
the structure. -/
inductive D3Behaviour where
  | undefinedInstr
  | nop
  | unknown
  | abortAt (kind : AbortKind) (offset : Nat)
  deriving DecidableEq, Repr, Inhabited

namespace Config

/-- `CU_D3_POLICY`: the model admits all three behaviours (DESIGN CHOICE, notes/assumptions/5: rule R94 lets a model
take either policy). -/
def d3Policy : D3Policy := .allThree

/-- Free choice: whether a condition-failed instruction that is UNDEFINED or not enabled faults (`true`) or completes
(40_vld3_one_lane.md rule R87, D10; notes/assumptions/6). -/
opaque skippedFaults (draw : Nat) : Bool

/-- Free choice: whether a word that is UNDEFINED while `AdvSIMDCheck` answers `HypTrap` ends in `HypTrap`
(40_vld3_one_lane.md rule R96, D21; notes/assumptions/7). -/
opaque trapsFirst (draw : Nat) : Bool

/-- Free choice: which of the admitted outcomes of `d3 > 31` occurs (40_vld3_one_lane.md rule R94; notes/assumptions/5). -/
opaque d3Behaviour (draw : Nat) : D3Behaviour

/-- Free value of `D[i]` when it becomes unknown (40_vld3_one_lane.md rule R94 (c); notes/assumptions/5). -/
opaque unknownD (draw : Nat) (i : Nat) : DWord

/-- Free value of the base register when it becomes unknown (40_vld3_one_lane.md rule R94 (c); notes/assumptions/5). -/
opaque unknownBase (draw : Nat) : Word

/-- Free value of `pc` after a fault that leaves the rest of the state as it was (10_state.md rule R24;
notes/assumptions/30). -/
opaque undefinedPc (draw : Nat) : Word

end Config

end Sys2Proof
end

