-- ==== Sys2Proof/Machine/State.lean ====
section
/-! DEFINITION. The state of the machine (10_state.md rule R20), as plain data, the reasons a step can stop, and the
state after reset. -/

namespace Sys2Proof.Machine

/-- Memory: a map from address to byte (10_state.md rules R20 (g) and R32), as the list of the bytes that differ from
what an unlisted address reads as, by rising address. -/
abbrev Memory := List Host.Cell

/-- The condition flags (10_state.md rule R25). -/
structure Flags where
  n : Bool
  z : Bool
  c : Bool
  v : Bool
  deriving DecidableEq, Repr, Inhabited

/-- The PE modes (60_exceptions.md rule R120; PRESUMED, the rule marks the list as general knowledge:
notes/assumptions/15). -/
inductive Mode where
  | user | fiq | irq | supervisor | monitor | abort | hyp | undefined | system
  deriving DecidableEq, Repr, Inhabited

/-- The Security states (60_exceptions.md rule R120; PRESUMED like the modes). -/
inductive Security where
  | secure | nonSecure
  deriving DecidableEq, Repr, Inhabited

/-- What the source says the enable check depends on: "settings in the CPACR, NSACR, and HCPTR registers, and the
Security state and PE mode" (10_state.md rule R28). No field of the three registers is in the spec. -/
structure SysRegs where
  cpacr : Word
  nsacr : Word
  hcptr : Word
  mode : Mode
  security : Security
  deriving DecidableEq, Repr, Inhabited

/-- One row of the table that stands for the OPEN parameter `AdvSIMDCheck` (00_scope.md rule R5, P6). -/
structure EnableRow where
  settings : SysRegs
  answer : EnableAnswer
  deriving DecidableEq, Repr

/-- One region of the map that stands for the OPEN parameter `MemAdmit` (00_scope.md rule R5, P7): it answers for a read
whose first byte lies in it and whose size is `width`, or any size when `width` is none. -/
structure Region where
  base : Nat
  length : Nat
  width : Option Nat
  answer : AdmitAnswer
  deriving DecidableEq, Repr

/-- The component `sys` of 10_state.md rule R20 (h): the control registers, mode and Security state, and what the OPEN
parameters answer. No rule writes it. The parameters stand here as data because the type of a step is fixed; a statement
over every state is a statement over every value of them (notes/assumptions/1 to 4). -/
structure Sys where
  regs : SysRegs
  /-- `AdvSIMDCheck`: the first row whose settings are those of `regs` -/
  enableTable : List EnableRow
  /-- `AdvSIMDCheck` at settings the table does not list -/
  enableDefault : EnableAnswer
  /-- `DataBigEndian`, the state bit `E` of rule R27 -/
  dataBigEndian : Bool
  /-- `StrictAlign` -/
  strictAlign : Bool
  /-- `MemAdmit`: the first region that answers for the read -/
  regions : List Region
  /-- `MemAdmit` where no region answers -/
  regionDefault : AdmitAnswer
  deriving DecidableEq, Repr, Inhabited

/-- A fault, with the record of 60_exceptions.md rule R114: the `pc` of the faulting instruction and, for a Data Abort,
its kind and address. A fault is terminal (rule R117). All three are safe: the spec gives these faults, and nothing can be
proved of a run after one. -/
inductive Fault where
  /-- `Undefined` (rule R111): raised by the decode of an UNDEFINED word, by the enable check, and by `d3 > 31`. Safe. -/
  | undefined (pc : Word)
  /-- `HypTrap` (rule R112): raised by the enable check. Safe. -/
  | hypTrap (pc : Word)
  /-- `DataAbort(kind, addr)` (rule R113): raised by an element read, and by `d3 > 31`. Safe. -/
  | dataAbort (pc : Word) (kind : AbortKind) (addr : Word)
  deriving DecidableEq, Repr

/-- A refusal: the spec gives the machine no meaning here (00_scope.md rule R10 (c)). Every one is safe: the model stops
where the hardware may go on. -/
inductive Refusal where
  /-- raised by an arm of `exec` that has no meaning yet. Safe. -/
  | notModelled (mnemonic : String)
  /-- `refuse(other_instruction)` (30_encoding.md rule R70): raised by the fetch when the bytes are none of the six
  encodings. Safe. -/
  | otherInstruction
  /-- raised by the fetch when `pc` is not aligned (10_state.md rule R23, 20_memory.md rule R43). Safe. -/
  | pcMisaligned
  /-- `refuse(pc_wrap)` (10_state.md rule R24): raised by completion, and by the fetch when the four bytes do not all
  exist. Safe. -/
  | pcWrap
  /-- `refuse(bad_itstate)` (10_state.md rule R26): raised by the condition of a T32 encoding. Safe. -/
  | badItstate
  /-- `refuse(unpredictable_n15)` (40_vld3_one_lane.md rule R93): raised by all six encodings. Safe. -/
  | unpredictableN15
  /-- `refuse(cunpredictable_d3)`: raised by T1, T2 and T3 when `d3 > 31` and the condition fails (40_vld3_one_lane.md
  rule R87, D10), and when it passes under the policy `refuse` only (rule R94). Safe. -/
  | cunpredictableD3
  /-- `refuse(addr_wrap)` (20_memory.md rule R49): raised by the element reads. Safe. -/
  | addrWrap
  /-- `refuse(mem_not_admitted)` (20_memory.md rule R44): raised by an element read. Safe. -/
  | memNotAdmitted
  deriving DecidableEq, Repr

/-- The state of the machine (10_state.md rule R20). -/
structure State where
  /-- `R[0]` to `R[15]` (rule R21); `R[15]` is never read or written (rule R22) -/
  regs : Vector Word 16
  /-- the address of the instruction being executed (rule R23) -/
  pc : Word
  /-- `N`, `Z`, `C`, `V` (rule R25) -/
  flags : Flags
  /-- `ITSTATE` (rule R26) -/
  itstate : BitVec 8
  /-- `T`: false means A32, true means T32 (rule R27) -/
  t : Bool
  /-- `D[0]` to `D[31]` (rule R29) -/
  dregs : Vector DWord 32
  /-- memory (rule R32) -/
  mem : Memory
  /-- the component of rule R20 (h) -/
  sys : Sys
  /-- the sticky mark of a fault (rule R20 (i), 60_exceptions.md rules R114 and R117) -/
  faulted : Option Fault
  /-- the sticky mark of a refusal (rule R20 (i), 00_scope.md rule R10 (c)) -/
  refused : Option Refusal
  /-- the MODEL's own field, not the spec's: how many executions have used a free value (notes/assumptions/25) -/
  draws : Nat
  deriving DecidableEq, Repr, Inhabited

/-- `sys` at reset. DESIGN CHOICE and PRESUMED throughout (notes/assumptions/1 to 4 and 15): the answers of the OPEN
parameters are those 95_test_vectors.md takes unless a vector says otherwise. -/
def Sys.reset : Sys where
  regs := { cpacr := 0, nsacr := 0, hcptr := 0, mode := .supervisor, security := .secure }
  enableTable := []
  enableDefault := .enabled
  dataBigEndian := false
  strictAlign := false
  regions := []
  regionDefault := .ok

/-- The machine right after reset. The spec states no reset value but that the two marks are clear (10_state.md rule
R34); every other value here is a DESIGN CHOICE (notes/assumptions/10 to 15). -/
def State.reset : State where
  regs := Vector.replicate 16 0
  pc := 0
  flags := { n := false, z := false, c := false, v := false }
  itstate := 0
  t := false
  dregs := Vector.replicate 32 0
  mem := []
  sys := Sys.reset
  faulted := none
  refused := none
  draws := 0

end Sys2Proof.Machine

/-- Free value: the state after a Data Abort or a refusal, marks apart, which the spec leaves undefined (00_scope.md rule
R10, 60_exceptions.md rule R117, 92_eei_decisions.md D27; notes/assumptions/30). -/
opaque Sys2Proof.Config.undefinedState (draw : Nat) : Sys2Proof.Machine.State
end

