-- ==== Sys2Proof/Machine/Flags.lean ====
section
/-! DEFINITION. Conditions and `ITSTATE` (10_state.md rules R25 and R26). The instruction writes no flag
(40_vld3_one_lane.md rule R92): the flags are only read, through the condition of a T32 encoding. Both rules are marked
general knowledge in the spec (notes/assumptions/26). -/

namespace Sys2Proof.Machine

/-- `base` of rule R25, by `cond[3:1]`. -/
def condBase (sel : BitVec 3) (f : Flags) : Bool :=
  match sel.toNat with
  | 0 => f.z
  | 1 => f.c
  | 2 => f.n
  | 3 => f.v
  | 4 => f.c && !f.z
  | 5 => f.n == f.v
  | 6 => f.n == f.v && !f.z
  | _ => true

/-- Whether a condition holds (rule R25): `base` when `cond[0]` is 0, its negation when it is 1, except that
`0b1111` holds always. -/
def condHolds (cond : BitVec 4) (f : Flags) : Bool :=
  cond = 0b1111#4 || (condBase (cond.extractLsb' 1 3) f != cond.getLsbD 0)

/-- The current condition that `ITSTATE` gives, or none where rule R26 refuses. -/
def currentCond (it : BitVec 8) : Option (BitVec 4) :=
  if it.extractLsb' 0 4 ≠ 0b0000#4 then some (it.extractLsb' 4 4)
  else if it = 0b00000000#8 then some 0b1110#4
  else none

/-- `ITSTATE` after an instruction of the block (rule R26). -/
def itAdvance (it : BitVec 8) : BitVec 8 :=
  if it.extractLsb' 0 3 = 0b000#3 then 0b00000000#8
  else it.extractLsb' 5 3 ++ (it.extractLsb' 0 5 <<< 1)

/-- The mnemonic suffix of a condition (rule R25): EQ to AL for 0 to 14. -/
def condSuffix (cond : BitVec 4) : String :=
  ["EQ", "NE", "CS", "CC", "MI", "PL", "VS", "VC", "HI", "LS", "GE", "LT", "GT", "LE", "AL"].getD cond.toNat ""

/-- The assembler line of a valid form under an `ITSTATE` (30_encoding.md rules R73 and R74): in T32 the suffix is that
of the current condition, and none for "always"; in A32 there is none. -/
def asmLine (i : Instr) (it : BitVec 8) : Option String :=
  let cond := match i.set, currentCond it with
    | .t32, some c => if c = 0b1110#4 then "" else condSuffix c
    | _, _ => ""
  i.asm.map fun a => a.text cond

end Sys2Proof.Machine
end

