-- ==== Sys2Proof/Machine/Operands.lean ====
section
/-! DEFINITION. Registers, lanes, views and addressing forms (00_scope.md rule R8; 10_state.md rules R21, R29 to R31;
40_vld3_one_lane.md rule R90). -/

namespace Sys2Proof.Machine

/-! ### The two register files -/

/-- `R[i]` (00_scope.md rule R8). -/
def State.r (s : State) (i : Fin 16) : Word := s.regs[i.val]

/-- `R[i] <- v`. -/
def State.setR (s : State) (i : Fin 16) (v : Word) : State := { s with regs := s.regs.set i.val v }

/-- `D[i]` (00_scope.md rule R8). -/
def State.d (s : State) (i : Fin 32) : DWord := s.dregs[i.val]

/-- `D[i] <- v`. -/
def State.setD (s : State) (i : Fin 32) (v : DWord) : State := { s with dregs := s.dregs.set i.val v }

/-- The register number a decode variable names. The decode of a valid form has checked that it is at most 31
(30_encoding.md rule R71), so the reduction modulo 32 never acts. -/
def dNum (k : Nat) : Fin 32 := Fin.ofNat 32 k

/-- The 128-bit view `Q[k]` of the same store (10_state.md rule R30). -/
def State.q (s : State) (k : Fin 16) : BitVec 128 := s.d (dNum (2 * k.val + 1)) ++ s.d (dNum (2 * k.val))

/-- The 32-bit view `S[j]` of the same store (10_state.md rule R30). -/
def State.sReg (s : State) (j : Fin 32) : BitVec 32 :=
  (s.d (dNum (j.val / 2))).extractLsb' (if j.val % 2 = 0 then 0 else 32) 32

/-! ### Lanes (10_state.md rule R31) -/

/-- `Elem(v, e, esize)`: the slice of `v` from bit `e*esize` up (00_scope.md rule R8). -/
def elem (v : DWord) (e esize : Nat) : BitVec esize := v.extractLsb' (e * esize) esize

/-- `SetElem(v, e, esize, w)`: `v` with that slice replaced by `w` and every other bit kept (00_scope.md rule R8). -/
def setElem (v : DWord) (e esize : Nat) (w : BitVec esize) : DWord :=
  (v &&& ~~~((BitVec.allOnes esize).setWidth 64 <<< (e * esize))) ||| (w.setWidth 64 <<< (e * esize))

/-- `D[k] <- SetElem(D[k], e, esize, w)`. -/
def State.setLane (s : State) (k e esize : Nat) (w : BitVec esize) : State :=
  s.setD (dNum k) (setElem (s.d (dNum k)) e esize w)

/-! ### Writeback (40_vld3_one_lane.md rule R90) -/

/-- The value the base register takes: by the index register, or by the size of the structure; modulo 2^32. -/
def writebackValue (v : DecodeVars) (s : State) : Word :=
  if v.registerIndex then s.r v.n + s.r v.m else s.r v.n + BitVec.ofNat 32 (3 * v.ebytes)

/-- "if wback then if register_index then R[n] = R[n] + R[m]; else R[n] = R[n] + 3*ebytes;" with the `else` belonging to
the inner `if` (90_conflicts.md C8). -/
def writeback (v : DecodeVars) (s : State) : State :=
  if v.wback then s.setR v.n (writebackValue v s) else s

end Sys2Proof.Machine
end

