-- ==== Sys2Proof/Machine/Ops.lean ====
section
/-! DEFINITION. The named operations every meaning is built from: sequencing, memory, fetching, the condition and the
enable check, raising a fault, the element reads, completion. -/

namespace Sys2Proof.Machine

/-- An outcome that carries `α` when the machine goes on. -/
abbrev Result (α : Type) := Host.Outcome α Fault Refusal

/-- Do `f` with what `o` gives; stop where `o` stops (40_vld3_one_lane.md rule R86: "stops at the first fault or
refusal"). -/
def andThen {α β : Type} (o : Result α) (f : α → Result β) : Result β :=
  match o with
  | .next a => f a
  | .fault r => .fault r
  | .refused r => .refused r

/-! ### Memory as data (10_state.md rule R32) -/

/-- What an address that the list does not hold reads as (DESIGN CHOICE, notes/assumptions/14). -/
def Memory.unlisted : Byte := 0

/-- The byte at an address. -/
def Memory.read : Memory → Nat → Byte
  | [], _ => Memory.unlisted
  | (k, b) :: m, a => if k = a then b else Memory.read m a

/-- A list with one more cell in front, unless the cell says what is said anyway. -/
def Memory.push (a : Nat) (b : Byte) (m : Memory) : Memory :=
  if b = Memory.unlisted then m else (a, b) :: m

/-- Memory with one byte written, in canonical form. -/
def Memory.write : Memory → Nat → Byte → Memory
  | [], a, b => Memory.push a b []
  | (k, c) :: m, a, b =>
    if a < k then Memory.push a b ((k, c) :: m)
    else if a = k then Memory.push a b m
    else (k, c) :: Memory.write m a b

/-- The canonical form from an address on: rising addresses below 2^32, no cell that says what is said anyway. -/
def Memory.wfFrom : Nat → Memory → Bool
  | _, [] => true
  | lo, (k, b) :: m =>
    decide (lo ≤ k) && decide (k < 2 ^ 32) && decide (b ≠ Memory.unlisted) && Memory.wfFrom (k + 1) m

/-- The canonical form of memory. -/
def Memory.wf (m : Memory) : Bool := Memory.wfFrom 0 m

/-- The bytes from an address up, lowest first. -/
def Memory.bytes (m : Memory) (a n : Nat) : List Byte := (List.range n).map fun k => m.read (a + k)

/-- Store a byte. No instruction does; a program is placed with it (notes/assumptions/22). -/
def State.storeByte (s : State) (a : Word) (b : Byte) : State := { s with mem := s.mem.write a.toNat b }

/-- Store bytes from an address up. -/
def State.storeBytes : State → Word → List Byte → State
  | s, _, [] => s
  | s, a, b :: bs => (s.storeByte a b).storeBytes (a + 1) bs

/-- The number that bytes spell, the first the least significant. -/
def littleEndian : List Byte → Nat
  | [] => 0
  | b :: bs => b.toNat + 256 * littleEndian bs

/-- The value of an element from its bytes, lowest address first (20_memory.md rule R40). -/
def assemble (bigEndian : Bool) (n : Nat) (bs : List Byte) : BitVec (8 * n) :=
  BitVec.ofNat (8 * n) (littleEndian (if bigEndian then bs.reverse else bs))

/-! ### The OPEN parameters, read from `sys` (00_scope.md rule R5) -/

/-- `AdvSIMDCheck` (P6; 40_vld3_one_lane.md rule R88). -/
def advSIMDCheck (s : State) : EnableAnswer :=
  match s.sys.enableTable.find? fun row => row.settings = s.sys.regs with
  | some row => row.answer
  | none => s.sys.enableDefault

/-- A region answers for a read of `n` bytes at `addr`. -/
def Region.answersFor (g : Region) (addr n : Nat) : Bool :=
  decide (g.base ≤ addr) && decide (addr < g.base + g.length) && (g.width = none || g.width = some n)

/-- `MemAdmit` (P7; 20_memory.md rule R48). -/
def memAdmit (s : State) (addr n : Nat) : AdmitAnswer :=
  match s.sys.regions.find? fun g => g.answersFor addr n with
  | some g => g.answer
  | none => s.sys.regionDefault

/-- `DataBigEndian` (P4; 20_memory.md rule R40). -/
def dataBigEndian (s : State) : Bool := s.sys.dataBigEndian

/-- `StrictAlign` (P5; 20_memory.md rule R42). -/
def strictAlign (s : State) : Bool := s.sys.strictAlign

/-! ### Faults and marks (60_exceptions.md rules R110 to R118) -/

/-- Taking an exception, the one operation for all: the outcome is the fault with the `pc` of the faulting instruction
in its record (rule R114). A fault is terminal: no handler, no vector, no saved state, no return (rules R117, R118). -/
def raise {α : Type} (s : State) (record : Word → Fault) : Result α := .fault (record s.pc)

/-- A marked machine takes no further step (60_exceptions.md rule R117; 00_scope.md rule R10): it stops with the reason
that is recorded. -/
def ready (s : State) : Result Unit :=
  match s.faulted, s.refused with
  | some r, _ => .fault r
  | none, some r => .refused r
  | none, none => .next ()

/-- What a fault leaves, its mark apart. `Undefined` and `HypTrap` are precise: nothing but `pc` is lost (60_exceptions.md
rules R111, R112 and R117; 10_state.md rule R24). After a Data Abort nothing is defined: neither the lanes and the base
register, nor any other field (60_exceptions.md rule R117, 40_vld3_one_lane.md rule R96, D27; notes/assumptions/30). -/
def afterFault (s : State) : Fault → State
  | .undefined _ => { s with pc := Config.undefinedPc s.draws }
  | .hypTrap _ => { s with pc := Config.undefinedPc s.draws }
  | .dataAbort _ _ _ => Config.undefinedState s.draws

/-- The state that is left when a step from `s` has the outcome `o`: the next state; or, with the sticky mark and its
record set, what the fault leaves, and nothing defined after a refusal (60_exceptions.md rule R117; 00_scope.md rule R10;
notes/assumptions/30). A marked machine takes no further step, so it stays as it is. -/
def settle (s : State) (o : Result State) : State :=
  match ready s, o with
  | .next _, .next t => t
  | .next _, .fault r => { afterFault s r with faulted := some r, refused := none }
  | .next _, .refused r => { Config.undefinedState s.draws with faulted := none, refused := some r }
  | _, _ => s

/-! ### Fetching (20_memory.md rules R41 and R43; 30_encoding.md rule R72) -/

/-- The instruction set the next instruction is decoded in (10_state.md rule R27). -/
def State.instrSet (s : State) : InstrSet := if s.t then .t32 else .a32

/-- What `pc` must be a multiple of (10_state.md rule R23). -/
def pcAlign : InstrSet → Nat
  | .a32 => 4
  | .t32 => 2

/-- The instruction at `pc`. It is read from memory, little-endian, and the data parameters are not asked
(20_memory.md rule R41; notes/assumptions/18). -/
def fetchInstr (s : State) : Result Instr :=
  if s.pc.toNat % pcAlign s.instrSet ≠ 0 then .refused .pcMisaligned
  else if s.pc.toNat + 4 > 2 ^ 32 then .refused .pcWrap
  else
    match decode s.instrSet (s.mem.bytes s.pc.toNat 4) with
    | .ok (i, _) => .next i
    | .error _ => .refused .otherInstruction

/-! ### The steps of one execution (40_vld3_one_lane.md rule R86) -/

/-- `CondPassed(state)` (rule R87): always true in A32, from `ITSTATE` and the flags in T32. -/
def condPassed (set : InstrSet) (s : State) : Result Bool :=
  match set with
  | .a32 => .next true
  | .t32 =>
    match currentCond s.itstate with
    | some c => .next (condHolds c s.flags)
    | none => .refused .badItstate

/-- `MemRead(addr, n)` (20_memory.md rule R44), its four steps in order. -/
def memRead (s : State) (addr n : Nat) : Result (BitVec (8 * n)) :=
  if addr + n > 2 ^ 32 then .refused .addrWrap
  else if strictAlign s && decide (addr % n ≠ 0) then
    raise s fun pc => .dataAbort pc .alignment (BitVec.ofNat 32 addr)
  else
    match memAdmit s addr n with
    | .abort => raise s fun pc => .dataAbort pc .other (BitVec.ofNat 32 addr)
    | .notAdmitted => .refused .memNotAdmitted
    | .ok => .next (assemble (dataBigEndian s) n (s.mem.bytes addr n))

/-- What completion leaves (rule R91): `pc + 4`, and in T32 the advance of `ITSTATE`. -/
def State.advance (s : State) (set : InstrSet) : State :=
  { s with
    pc := s.pc + 4
    itstate := match set with
      | .a32 => s.itstate
      | .t32 => itAdvance s.itstate }

/-- Completion (rule R91), refused where `pc + 4` is not below 2^32 (10_state.md rule R24). -/
def complete (set : InstrSet) (s : State) : Result State :=
  if s.pc.toNat + 4 < 2 ^ 32 then .next (s.advance set) else .refused .pcWrap

/-- The next execution's free values are new ones. -/
def State.tick (s : State) : State := { s with draws := s.draws + 1 }

/-- The three element reads and lane writes of rule R89. The structure must end below 2^32 (20_memory.md rule R49). All
three reads come before the writes, as rule R89 allows. -/
def loadLanes (v : DecodeVars) (s : State) : Result State :=
  let address := (s.r v.n).toNat
  if address + 3 * v.ebytes > 2 ^ 32 then .refused .addrWrap
  else
    andThen (memRead s address v.ebytes) fun v1 =>
    andThen (memRead s (address + v.ebytes) v.ebytes) fun v2 =>
    andThen (memRead s (address + 2 * v.ebytes) v.ebytes) fun v3 =>
    .next (((s.setLane v.d v.index v.esize v1).setLane v.d2 v.index v.esize v2).setLane v.d3 v.index v.esize v3)

/-- Steps (4) to (7) of rule R86. -/
def loadStructure (set : InstrSet) (v : DecodeVars) (s : State) : Result State :=
  andThen (loadLanes v s) fun t => complete set (writeback v t)

/-- The enable check of a valid form (rule R88). -/
def checkEnabled (s : State) : Result Unit :=
  match advSIMDCheck s with
  | .enabled => .next ()
  | .undefined => raise s .undefined
  | .hypTrap => raise s .hypTrap

/-- The fault of an UNDEFINED word: `Undefined`, or `HypTrap` as well when the enable check answers so (rule R96, D21);
`trapFirst` is the free choice. -/
def raiseUndefined (trapFirst : Bool) (s : State) : Result State :=
  if advSIMDCheck s = .hypTrap && trapFirst then raise s .hypTrap else raise s .undefined

/-- A register file of free values. Irreducible, so that no proof runs through its 32 entries. -/
@[irreducible] def unknownFile (draw : Nat) : Vector DWord 32 := Vector.ofFn fun i => Config.unknownD draw i.val

/-- Every `D[i]` made unknown (rule R94 (c)). -/
def State.unknownDs (s : State) : State := { s with dregs := unknownFile s.draws }

/-- Every `D[i]`, and the base register with writeback, made unknown (rule R94 (c)). -/
def scramble (v : DecodeVars) (s : State) : State :=
  if v.wback then s.unknownDs.setR v.n (Config.unknownBase s.draws) else s.unknownDs

/-- `d3 > 31` with `n != 15` (rule R94), for each policy and each behaviour. -/
def cunpredictableD3 (policy : D3Policy) (behaviour : D3Behaviour) (set : InstrSet) (v : DecodeVars) (s : State) :
    Result State :=
  match policy with
  | .refuse => .refused .cunpredictableD3
  | .allThree =>
    match behaviour with
    | .undefinedInstr => raise s .undefined
    | .nop => complete set s.tick
    | .unknown => complete set (scramble v s).tick
    | .abortAt kind offset =>
      raise s fun pc => .dataAbort pc kind (s.r v.n + BitVec.ofNat 32 (offset % (3 * v.ebytes)))

/-- The same with the policy of the model and the behaviour drawn; for a word whose condition passes. -/
def drawD3 (set : InstrSet) (v : DecodeVars) (s : State) : Result State :=
  cunpredictableD3 Config.d3Policy (Config.d3Behaviour s.draws) set v s

/-- Two admitted outcomes (rule R87): the fault, or completion with nothing else changed. -/
def faultOrComplete (faults : Bool) (fault : Result State) (set : InstrSet) (s : State) : Result State :=
  if faults then fault else complete set s.tick

/-- An execution whose condition passes (rule R86 from step (2) on). -/
def executePassed (set : InstrSet) (dec : Decoded) (s : State) : Result State :=
  match dec with
  | .undefined => raiseUndefined (Config.trapsFirst s.draws) s
  | .unpredictableN15 => .refused .unpredictableN15
  | .unpredictableD3 v => drawD3 set v s
  | .valid v => andThen (checkEnabled s) fun _ => loadStructure set v s

/-- An execution whose condition fails (rule R87). A word that is UNPREDICTABLE is refused under either policy (D10;
notes/assumptions/8). -/
def executeSkipped (set : InstrSet) (dec : Decoded) (s : State) : Result State :=
  match dec with
  | .undefined =>
    faultOrComplete (Config.skippedFaults s.draws) (raiseUndefined (Config.trapsFirst s.draws) s) set s
  | .unpredictableN15 => .refused .unpredictableN15
  | .unpredictableD3 _ => .refused .cunpredictableD3
  | .valid _ =>
    match advSIMDCheck s with
    | .enabled => complete set s
    | .undefined => faultOrComplete (Config.skippedFaults s.draws) (raise s .undefined) set s
    | .hypTrap => faultOrComplete (Config.skippedFaults s.draws) (raise s .hypTrap) set s

/-- One execution (rule R86): the condition, then what follows from it. -/
def execute (set : InstrSet) (dec : Decoded) (s : State) : Result State :=
  andThen (condPassed set s) fun passed =>
    if passed then executePassed set dec s else executeSkipped set dec s

end Sys2Proof.Machine
end

