-- ==== Sys2Proof/Machine/Vld3.lean ====
section
/-! DEFINITION. The meanings of the six encodings (40_vld3_one_lane.md rules R80 to R85): the decode each encoding prints,
and the one Operation the source gives for all six (rule R86). -/

namespace Sys2Proof.Machine

/-- VLD3.8, encoding A1 (rule R80). -/
def execVld3A1 (f : Fields) (s : State) : Host.Outcome State Fault Refusal := execute .a32 f.decode8 s

/-- VLD3.16, encoding A2 (rule R81). -/
def execVld3A2 (f : Fields) (s : State) : Host.Outcome State Fault Refusal := execute .a32 f.decode16 s

/-- VLD3.32, encoding A3 (rule R82). -/
def execVld3A3 (f : Fields) (s : State) : Host.Outcome State Fault Refusal := execute .a32 f.decode32 s

/-- VLD3.8, encoding T1 (rule R83): as A1, but conditional, and `ITSTATE` advances. -/
def execVld3T1 (f : Fields) (s : State) : Host.Outcome State Fault Refusal := execute .t32 f.decode8 s

/-- VLD3.16, encoding T2 (rule R84): as A2, but conditional, and `ITSTATE` advances. -/
def execVld3T2 (f : Fields) (s : State) : Host.Outcome State Fault Refusal := execute .t32 f.decode16 s

/-- VLD3.32, encoding T3 (rule R85): as A3, but conditional, and `ITSTATE` advances. -/
def execVld3T3 (f : Fields) (s : State) : Host.Outcome State Fault Refusal := execute .t32 f.decode32 s

end Sys2Proof.Machine
end

