-- ==== Sys2Proof/Machine/Dispatch.lean ====
section
/-! DEFINITION. One arm per constructor of `Instr`. -/

namespace Sys2Proof.Machine
open Sys2Proof

-- each arm calls the meaning of its encoding (40_vld3_one_lane.md rules R80 to R85)
def exec (i : Instr) (s : State) : Host.Outcome State Fault Refusal :=
  match i with
  | .vld3A1 f => Sys2Proof.Machine.execVld3A1 f s
  | .vld3A2 f => Sys2Proof.Machine.execVld3A2 f s
  | .vld3A3 f => Sys2Proof.Machine.execVld3A3 f s
  | .vld3T1 f => Sys2Proof.Machine.execVld3T1 f s
  | .vld3T2 f => Sys2Proof.Machine.execVld3T2 f s
  | .vld3T3 f => Sys2Proof.Machine.execVld3T3 f s

end Sys2Proof.Machine
end

