-- ==== Sys2Proof/Machine/Step.lean ====
section
/-! DEFINITION. One step of the machine, and the placing of one instruction where the next step fetches. -/

namespace Sys2Proof.Machine

/-- One step: a marked machine takes none (60_exceptions.md rule R117); otherwise the instruction at `pc` is fetched and
executed. -/
def step (s : State) : Host.Outcome State Fault Refusal :=
  andThen (ready s) fun _ => andThen (fetchInstr s) fun i => exec i s

/-- `s` with the instruction whose bits are `w`, numbered as opcode_table.json numbers them, laid out at `pc`, and `T`
set to the instruction set whose row it is (notes/assumptions/22). A number that is no row's is laid out in the
instruction set `s` is in. -/
def State.withFetchWord (s : State) (nbits w : Nat) : State :=
  let p : Word := BitVec.ofNat 32 (w % 2 ^ nbits)
  let set := (tableSet p).getD s.instrSet
  let t : State := { s with t := decide (set = InstrSet.t32) }
  t.storeBytes s.pc (layOut set p)

end Sys2Proof.Machine
end

