-- ==== Sys2Proof/Safety.lean ====
section
/-! DEFINITION. The terms in which statements about the machine are made: what must hold for an instruction to complete,
what it may change, the invariant of the machine, marked runs and their end. -/

namespace Sys2Proof.Machine

/-! ### When a valid form completes (70_reset_and_hazards.md rule R131, for one execution) -/

/-- The address of the first element: the base register (40_vld3_one_lane.md rule R89). -/
def baseAddress (v : DecodeVars) (s : State) : Nat := (s.r v.n).toNat

/-- The condition of an encoding of this instruction set passes (rule R87). -/
abbrev Passes (set : InstrSet) (s : State) : Prop :=
  set = .t32 → ∃ c, currentCond s.itstate = some c ∧ condHolds c s.flags = true

/-- The condition fails; only in T32 (rule R87). -/
abbrev Fails (set : InstrSet) (s : State) : Prop :=
  set = .t32 ∧ ∃ c, currentCond s.itstate = some c ∧ condHolds c s.flags = false

/-- The structure ends at or below the top of the address space (20_memory.md rule R49). -/
abbrev Fits (v : DecodeVars) (s : State) : Prop := baseAddress v s + 3 * v.ebytes ≤ 2 ^ 32

/-- The elements are aligned where that is asked (20_memory.md rule R42). -/
abbrev Aligned (v : DecodeVars) (s : State) : Prop := strictAlign s = true → baseAddress v s % v.ebytes = 0

/-- The answer of `MemAdmit` for element `k` of the structure (20_memory.md rule R48). -/
def admitElement (v : DecodeVars) (s : State) (k : Nat) : AdmitAnswer :=
  memAdmit s (baseAddress v s + k * v.ebytes) v.ebytes

/-- All three element reads are admitted. -/
abbrev Admitted (v : DecodeVars) (s : State) : Prop := ∀ k, k < 3 → admitElement v s k = .ok

/-- The instruction after this one has an address (10_state.md rule R24). -/
abbrev PcFits (s : State) : Prop := s.pc.toNat + 4 < 2 ^ 32

/-- Everything a valid form whose condition passes needs to complete. -/
abbrev CanLoad (v : DecodeVars) (s : State) : Prop :=
  advSIMDCheck s = .enabled ∧ Fits v s ∧ Aligned v s ∧ Admitted v s ∧ PcFits s

/-! ### What an execution changes (40_vld3_one_lane.md rules R89 to R92, R97) -/

/-- Element `k` of the structure in memory (rule R89, 20_memory.md rule R40). -/
def element (v : DecodeVars) (s : State) (k : Nat) : BitVec v.esize :=
  assemble s.sys.dataBigEndian v.ebytes (s.mem.bytes (baseAddress v s + k * v.ebytes) v.ebytes)

/-- Register `i` is none of the three the instruction loads into. -/
abbrev NotLoaded (v : DecodeVars) (i : Fin 32) : Prop := i.val ≠ v.d ∧ i.val ≠ v.d2 ∧ i.val ≠ v.d3

/-- What no execution of this instruction changes (rule R97). -/
abbrev SameOutside (s t : State) : Prop :=
  t.flags = s.flags ∧ t.t = s.t ∧ t.mem = s.mem ∧ t.sys = s.sys ∧ t.faulted = s.faulted ∧ t.refused = s.refused

/-- What completion does (rule R91). -/
abbrev Completed (set : InstrSet) (s t : State) : Prop :=
  t.pc = s.pc + 4 ∧ t.itstate = if set = .t32 then itAdvance s.itstate else s.itstate

/-- No register of either file changed. -/
abbrev SameRegisters (s t : State) : Prop := (∀ i, t.r i = s.r i) ∧ ∀ i, t.d i = s.d i

/-- The three lanes are loaded, in ascending order of address and register number, and every other D register and lane
is kept (rule R89; the lane is `index`, of `esize` bits). -/
abbrev LanesLoaded (v : DecodeVars) (s t : State) : Prop :=
  (∀ i : Fin 32, i.val = v.d → t.d i = setElem (s.d i) v.index v.esize (element v s 0)) ∧
  (∀ i : Fin 32, i.val = v.d2 → t.d i = setElem (s.d i) v.index v.esize (element v s 1)) ∧
  (∀ i : Fin 32, i.val = v.d3 → t.d i = setElem (s.d i) v.index v.esize (element v s 2)) ∧
  ∀ i : Fin 32, NotLoaded v i → t.d i = s.d i

/-- The base register takes its new value where the form has writeback; no other general-purpose register changes
(rule R90). -/
abbrev WrittenBack (v : DecodeVars) (s t : State) : Prop :=
  (v.m.val = 15 → t.r v.n = s.r v.n) ∧
  (v.m.val = 13 → t.r v.n = s.r v.n + BitVec.ofNat 32 (3 * v.ebytes)) ∧
  (v.m.val ≠ 15 → v.m.val ≠ 13 → t.r v.n = s.r v.n + s.r v.m) ∧
  ∀ i, i ≠ v.n → t.r i = s.r i

/-! ### The columns of 30_encoding.md rule R65's table: index, inc, d max; none where the table says UNDEFINED -/

/-- A1 and T1. -/
def indexTable8 : List (Option (Nat × Nat × Nat)) :=
  [some (0, 1, 29), none, some (1, 1, 29), none, some (2, 1, 29), none, some (3, 1, 29), none,
   some (4, 1, 29), none, some (5, 1, 29), none, some (6, 1, 29), none, some (7, 1, 29), none]

/-- A2 and T2. -/
def indexTable16 : List (Option (Nat × Nat × Nat)) :=
  [some (0, 1, 29), none, some (0, 2, 27), none, some (1, 1, 29), none, some (1, 2, 27), none,
   some (2, 1, 29), none, some (2, 2, 27), none, some (3, 1, 29), none, some (3, 2, 27), none]

/-- A3 and T3. -/
def indexTable32 : List (Option (Nat × Nat × Nat)) :=
  [some (0, 1, 29), none, none, none, some (0, 2, 27), none, none, none,
   some (1, 1, 29), none, none, none, some (1, 2, 27), none, none, none]

/-- What a cell of the table says of a decode, for an encoding of `ebytes` bytes an element: UNDEFINED whatever the other
fields hold; else UNPREDICTABLE when `n == 15`; else valid up to "d max" and CONSTRAINED UNPREDICTABLE above it. -/
def DecodesAsTable (cell : Option (Nat × Nat × Nat)) (ebytes : Nat) (f : Fields) (dec : Decoded) : Prop :=
  match cell with
  | none => dec = .undefined
  | some (index, inc, dMax) =>
    if f.rn = 15#4 then dec = .unpredictableN15
    else if f.firstReg ≤ dMax then dec = .valid (f.vars ebytes index inc)
    else dec = .unpredictableD3 (f.vars ebytes index inc)

/-! ### The invariant of the machine -/

/-- Memory is in canonical form; `pc` is aligned for the instruction set (10_state.md rule R23); `ITSTATE` is one that
rule R26 accepts, and zero in A32 (the launch premise `ItClean` of 70_reset_and_hazards.md rule R131). -/
abbrev Inv (s : State) : Prop :=
  s.mem.wf = true ∧ s.pc.toNat % pcAlign s.instrSet = 0 ∧ (currentCond s.itstate).isSome = true ∧
  (s.t = false → s.itstate = 0)

/-! ### Marked runs (60_exceptions.md rule R117, 70_reset_and_hazards.md rule R134) -/

/-- `k` steps, each leaving the state that `settle` says, so that a fault or a refusal leaves its mark. -/
def runMarked : Nat → State → State
  | 0, s => s
  | k + 1, s => runMarked k (settle s (step s))

/-- The two marks are clear. -/
abbrev Unmarked (s : State) : Prop := s.faulted = none ∧ s.refused = none

/-- The state after a program of `k` instructions at `base` is final (rule R134). -/
abbrev Final (base k : Nat) (s : State) : Prop := s.pc.toNat = base + 4 * k ∧ Unmarked s

/-- The record of a fault says where it was raised (60_exceptions.md rule R114). -/
def Fault.recordedPc : Fault → Word
  | .undefined pc => pc
  | .hypTrap pc => pc
  | .dataAbort pc _ _ => pc

end Sys2Proof.Machine
end

