-- ==== Sys2Proof/Certificates/Slice0/Obligations.lean ====
section
/-! DEFINITION. The statements for the provers. `i` ranges over all six encodings A1, A2, A3, T1, T2, T3 unless a
statement says otherwise; every statement is over every state, and so over every value of the parameters the spec leaves
OPEN. None rests on the value of `draws`. -/

open Sys2Proof Sys2Proof.Machine

/-! ### Encoding -/

/-- Decoding the bytes of any instruction gives it back, with every operand field at every value, and leaves the bytes
after it (30_encoding.md section 1, 20_memory.md section 1). -/
def Obligations.DecodeOfEncodeIsTheInstruction : Prop :=
  ∀ (i : Instr) (rest : List Byte), decode i.set (encode i ++ rest) = .ok (i, rest)

/-- Whatever bytes decode to an instruction are its encoding, in its own instruction set: no bit is ignored. -/
def Obligations.EncodeOfDecodeIsTheBytes : Prop :=
  ∀ (set : InstrSet) (b0 b1 b2 b3 : Byte) (rest rest' : List Byte) (i : Instr),
    decode set (b0 :: b1 :: b2 :: b3 :: rest) = .ok (i, rest') →
      i.set = set ∧ encode i = [b0, b1, b2, b3] ∧ rest' = rest

/-- A pattern is one of the six encodings exactly when it matches a row of the opcode table (30_encoding.md section 3). -/
def Obligations.PatternsAreThoseOfTheTable : Prop :=
  ∀ (w : Word) (f : Fields),
    (decodeWord .a32 w = some (.vld3A1 f) ↔ w &&& 0xFFB00F00#32 = 0xF4A00200#32 ∧ f = fieldsOf w) ∧
    (decodeWord .a32 w = some (.vld3A2 f) ↔ w &&& 0xFFB00F00#32 = 0xF4A00600#32 ∧ f = fieldsOf w) ∧
    (decodeWord .a32 w = some (.vld3A3 f) ↔ w &&& 0xFFB00F00#32 = 0xF4A00A00#32 ∧ f = fieldsOf w) ∧
    (decodeWord .t32 w = some (.vld3T1 f) ↔ w &&& 0xFFB00F00#32 = 0xF9A00200#32 ∧ f = fieldsOf w) ∧
    (decodeWord .t32 w = some (.vld3T2 f) ↔ w &&& 0xFFB00F00#32 = 0xF9A00600#32 ∧ f = fieldsOf w) ∧
    (decodeWord .t32 w = some (.vld3T3 f) ↔ w &&& 0xFFB00F00#32 = 0xF9A00A00#32 ∧ f = fieldsOf w)

/-- Words written out from the diagrams (95_test_vectors.md E4, E6, E10, E11, E12, E13) decode to what they stand for. -/
def Obligations.WordsOfTheSpecDecode : Prop :=
  decodeWord .a32 0xF4EDD2E2#32 = some (.vld3A1 ⟨1, 0b1101, 0b1101, 0b1110, 0b0010⟩) ∧
  decodeWord .a32 0xF4A146A2#32 = some (.vld3A2 ⟨0, 0b0001, 0b0100, 0b1010, 0b0010⟩) ∧
  decodeWord .a32 0xF4A41A44#32 = some (.vld3A3 ⟨0, 0b0100, 0b0001, 0b0100, 0b0100⟩) ∧
  decodeWord .t32 0xF9A0022F#32 = some (.vld3T1 ⟨0, 0b0000, 0b0000, 0b0010, 0b1111⟩) ∧
  decodeWord .t32 0xF9A7A64D#32 = some (.vld3T2 ⟨0, 0b0111, 0b1010, 0b0100, 0b1101⟩) ∧
  decodeWord .t32 0xF9ED1ACD#32 = some (.vld3T3 ⟨1, 0b1101, 0b0001, 0b1100, 0b1101⟩)

/-- Rule R64: among the patterns that match the cells outside `size`, `size` selects the encoding and with it the
element size; `0b11` is not this instruction; the element size in bits is 8, 16, 32. -/
def Obligations.SizeFieldSelectsEncoding : Prop :=
  ∀ (w : Word) (v : DecodeVars),
    (w &&& 0xFFB00300#32 = 0xF4A00200#32 →
      decodeWord .a32 w =
        if w.extractLsb' 10 2 = 0b00#2 then some (.vld3A1 (fieldsOf w))
        else if w.extractLsb' 10 2 = 0b01#2 then some (.vld3A2 (fieldsOf w))
        else if w.extractLsb' 10 2 = 0b10#2 then some (.vld3A3 (fieldsOf w))
        else none) ∧
    (w &&& 0xFFB00300#32 = 0xF9A00200#32 →
      decodeWord .t32 w =
        if w.extractLsb' 10 2 = 0b00#2 then some (.vld3T1 (fieldsOf w))
        else if w.extractLsb' 10 2 = 0b01#2 then some (.vld3T2 (fieldsOf w))
        else if w.extractLsb' 10 2 = 0b10#2 then some (.vld3T3 (fieldsOf w))
        else none) ∧
    ∀ (f : Fields) (i : Instr), i.decoded = .valid v ∨ i.decoded = .unpredictableD3 v →
      (i = .vld3A1 f ∨ i = .vld3T1 f → v.ebytes = 1 ∧ v.esize = 8) ∧
      (i = .vld3A2 f ∨ i = .vld3T2 f → v.ebytes = 2 ∧ v.esize = 16) ∧
      (i = .vld3A3 f ∨ i = .vld3T3 f → v.ebytes = 4 ∧ v.esize = 32)

/-- The table of all 48 cases of `index_align`: the lane, the spacing, the UNDEFINED cases and the largest `d`, for all
six encodings and every value of the other fields (30_encoding.md section 2, rule R65). That UNDEFINED goes before every
other case (section 4, rule R69) and `n == 15` before `d3 > 31` (rule R71) is the spec's own inference, marked derived
there. -/
def Obligations.IndexAlignGivesLaneAndSpacing : Prop :=
  ∀ f : Fields,
    DecodesAsTable ((indexTable8[f.indexAlign.toNat]?).getD none) 1 f (Instr.vld3A1 f).decoded ∧
    DecodesAsTable ((indexTable16[f.indexAlign.toNat]?).getD none) 2 f (Instr.vld3A2 f).decoded ∧
    DecodesAsTable ((indexTable32[f.indexAlign.toNat]?).getD none) 4 f (Instr.vld3A3 f).decoded ∧
    DecodesAsTable ((indexTable8[f.indexAlign.toNat]?).getD none) 1 f (Instr.vld3T1 f).decoded ∧
    DecodesAsTable ((indexTable16[f.indexAlign.toNat]?).getD none) 2 f (Instr.vld3T2 f).decoded ∧
    DecodesAsTable ((indexTable32[f.indexAlign.toNat]?).getD none) 4 f (Instr.vld3T3 f).decoded

/-- `n = UInt(Rn)`, `m = UInt(Rm)`; `Rm` selects one of three addressing forms; no value of `Rn` but 15, nor `n == m`, is
restricted: any two instructions that differ only in a `Rn` that is not 15 are both valid or neither (30_encoding.md
section 2, rule R66). That `n == 15` is UNPREDICTABLE without the list of `d3 > 31`, also when `d3 > 31`, and only where
the word is not UNDEFINED, is the spec's own inference (section 4, rules R69 and R71, marked derived there). -/
def Obligations.RmSelectsAddressingForm : Prop :=
  (∀ (i : Instr) (v : DecodeVars), i.decoded = .valid v ∨ i.decoded = .unpredictableD3 v →
    v.n.val = i.fields.rn.toNat ∧ v.m.val = i.fields.rm.toNat ∧ v.n.val ≠ 15 ∧
    (i.fields.rm = 0b1111#4 → v.wback = false ∧ v.registerIndex = false) ∧
    (i.fields.rm = 0b1101#4 → v.wback = true ∧ v.registerIndex = false) ∧
    (i.fields.rm ≠ 0b1111#4 → i.fields.rm ≠ 0b1101#4 → v.wback = true ∧ v.registerIndex = true)) ∧
  (∀ i : Instr, i.fields.rn = 0b1111#4 → i.decoded = .undefined ∨ i.decoded = .unpredictableN15) ∧
  ∀ (mk : Fields → Instr), mk ∈ [Instr.vld3A1, .vld3A2, .vld3A3, .vld3T1, .vld3T2, .vld3T3] →
    ∀ (f : Fields) (rn : BitVec 4), f.rn ≠ 15#4 → rn ≠ 15#4 →
      ((∃ v, (mk f).decoded = .valid v) ↔ ∃ v, (mk { f with rn := rn }).decoded = .valid v)

/-- `d = 16*UInt(D) + UInt(Vd)`, 0 to 31; the three registers are `d`, `d + inc`, `d + 2*inc` with `inc` 1 or 2;
`d3 > 31` is UNPREDICTABLE (30_encoding.md section 2, rule R67). That the three numbers are distinct is the spec's own
inference, marked derived in that rule. -/
def Obligations.RegisterNumbersOfTheStructure : Prop :=
  (∀ (i : Instr) (v : DecodeVars), i.decoded = .valid v ∨ i.decoded = .unpredictableD3 v →
    v.d = 16 * i.fields.dBit.toNat + i.fields.vd.toNat ∧ v.d ≤ 31 ∧
    (v.inc = 1 ∨ v.inc = 2) ∧ v.d2 = v.d + v.inc ∧ v.d3 = v.d + 2 * v.inc ∧
    v.d ≠ v.d2 ∧ v.d2 ≠ v.d3 ∧ v.d ≠ v.d3) ∧
  ∀ (i : Instr) (v : DecodeVars), (i.decoded = .valid v → v.d3 ≤ 31) ∧ (i.decoded = .unpredictableD3 v → v.d3 > 31)

/-- The words UNDEFINED by `index_align`, whatever `Rn`, `D`, `Vd` and `Rm` hold (30_encoding.md section 4). -/
def Obligations.UndefinedWordsDecode : Prop :=
  ∀ f : Fields,
    ((Instr.vld3A1 f).decoded = .undefined ↔ f.indexAlign.getLsbD 0 = true) ∧
    ((Instr.vld3A2 f).decoded = .undefined ↔ f.indexAlign.getLsbD 0 = true) ∧
    ((Instr.vld3A3 f).decoded = .undefined ↔ f.indexAlign.getLsbD 0 = true ∨ f.indexAlign.getLsbD 1 = true) ∧
    ((Instr.vld3T1 f).decoded = .undefined ↔ f.indexAlign.getLsbD 0 = true) ∧
    ((Instr.vld3T2 f).decoded = .undefined ↔ f.indexAlign.getLsbD 0 = true) ∧
    ((Instr.vld3T3 f).decoded = .undefined ↔ f.indexAlign.getLsbD 0 = true ∨ f.indexAlign.getLsbD 1 = true)

/-- Well-formed, written from the table's "d max", is the same as valid by the decode pseudocode (92_eei_decisions.md
D29): two independent readings agree. -/
def Obligations.WellFormedIsValidByDecode : Prop :=
  ∀ i : Instr, i.wellFormed = true ↔ ∃ v, i.decoded = .valid v

/-! ### Conditions and ITSTATE -/

/-- The sixteen conditions over the flags (10_state.md section 4; the spec marks the table as general knowledge). -/
def Obligations.ConditionsOverTheFlags : Prop :=
  ∀ f : Flags,
    (condHolds 0b0000#4 f = true ↔ f.z = true) ∧ (condHolds 0b0001#4 f = true ↔ f.z = false) ∧
    (condHolds 0b0010#4 f = true ↔ f.c = true) ∧ (condHolds 0b0011#4 f = true ↔ f.c = false) ∧
    (condHolds 0b0100#4 f = true ↔ f.n = true) ∧ (condHolds 0b0101#4 f = true ↔ f.n = false) ∧
    (condHolds 0b0110#4 f = true ↔ f.v = true) ∧ (condHolds 0b0111#4 f = true ↔ f.v = false) ∧
    (condHolds 0b1000#4 f = true ↔ f.c = true ∧ f.z = false) ∧
    (condHolds 0b1001#4 f = true ↔ ¬(f.c = true ∧ f.z = false)) ∧
    (condHolds 0b1010#4 f = true ↔ f.n = f.v) ∧ (condHolds 0b1011#4 f = true ↔ f.n ≠ f.v) ∧
    (condHolds 0b1100#4 f = true ↔ f.n = f.v ∧ f.z = false) ∧
    (condHolds 0b1101#4 f = true ↔ ¬(f.n = f.v ∧ f.z = false)) ∧
    condHolds 0b1110#4 f = true ∧ condHolds 0b1111#4 f = true

/-- Reading and advancing `ITSTATE` bit by bit, and that an accepted value advances to an accepted one (10_state.md
section 4; general knowledge there). -/
def Obligations.ItstateReadAndAdvance : Prop :=
  ∀ it : BitVec 8,
    currentCond it =
      (if it.toNat % 16 ≠ 0 then some (BitVec.ofNat 4 (it.toNat / 16))
       else if it.toNat = 0 then some 14#4 else none) ∧
    (itAdvance it).toNat =
      (if it.toNat % 8 = 0 then 0 else 32 * (it.toNat / 32) + 2 * it.toNat % 32) ∧
    ((currentCond it).isSome = true → (currentCond (itAdvance it)).isSome = true)

/-- A T32 encoding under an `ITSTATE` that is not acceptable is refused by name, whatever its word (10_state.md
section 4). -/
def Obligations.BadItstateIsRefused : Prop :=
  ∀ (i : Instr) (s : State), i.set = .t32 → s.itstate.toNat % 16 = 0 → s.itstate.toNat ≠ 0 →
    exec i s = .refused .badItstate

/-! ### Lanes, elements, views -/

/-- Writing a lane replaces exactly the bits of the lane (00_scope.md section 4, 10_state.md section 6). -/
def Obligations.SetElemBits : Prop :=
  ∀ (v : DWord) (e esize : Nat) (w : BitVec esize) (j : Nat), (e + 1) * esize ≤ 64 → j < 64 →
    (setElem v e esize w).getLsbD j =
      if e * esize ≤ j ∧ j < (e + 1) * esize then w.getLsbD (j - e * esize) else v.getLsbD j

/-- The bytes of an element: in little-endian order byte `k` of the value is the byte at `addr + k`; in big-endian order
it is the byte at `addr + (n - 1 - k)` (20_memory.md section 1). -/
def Obligations.ElementBytesByByteOrder : Prop :=
  ∀ (m : Memory) (a n k : Nat), k < n →
    (assemble false n (m.bytes a n)).extractLsb' (8 * k) 8 = m.read (a + k) ∧
    (assemble true n (m.bytes a n)).extractLsb' (8 * k) 8 = m.read (a + (n - 1 - k))

/-- A lane write is seen through the 128-bit and 32-bit views, which are views of one store (10_state.md section 6). -/
def Obligations.LaneWritesAreSeenThroughTheViews : Prop :=
  ∀ (s : State) (k e esize : Nat) (w : BitVec esize), k < 32 →
    (∀ q : Fin 16, (s.setLane k e esize w).q q =
      (if k = 2 * q.val + 1 then setElem (s.d (dNum k)) e esize w else s.d (dNum (2 * q.val + 1))) ++
      (if k = 2 * q.val then setElem (s.d (dNum k)) e esize w else s.d (dNum (2 * q.val)))) ∧
    ∀ j : Fin 32, (s.setLane k e esize w).sReg j =
      ((if k = j.val / 2 then setElem (s.d (dNum k)) e esize w else s.d (dNum (j.val / 2))).extractLsb'
        (if j.val % 2 = 0 then 0 else 32) 32)

/-! ### Completion and results -/

/-- A1, A2, A3, T1, T2 and T3 complete: a valid form whose condition passes, enabled, with its structure below 2^32,
aligned where that is asked, all reads admitted and `pc + 4` below 2^32, answers the next state with the three lanes
loaded, the base register written back, `pc` and in T32 `ITSTATE` advanced, and nothing else changed. -/
def Obligations.ValidFormsLoadTheirStructure : Prop :=
  ∀ (i : Instr) (v : DecodeVars) (s : State),
    i.decoded = .valid v → Passes i.set s → CanLoad v s →
      ∃ t, exec i s = .next t ∧ LanesLoaded v s t ∧ WrittenBack v s t ∧ Completed i.set s t ∧ SameOutside s t ∧
        t.draws = s.draws

/-- The same for A1 and T1 with every decode variable written out from the fields: 8-bit elements, lane
`index_align[3:1]`, single spacing. -/
def Obligations.EightBitFormsLoadThreeBytes : Prop :=
  ∀ (f : Fields) (s : State) (i : Instr), (i = .vld3A1 f ∨ i = .vld3T1 f) → f.wellFormed8 = true → Passes i.set s →
    CanLoad (f.vars 1 (f.indexAlign.toNat / 2) 1) s →
      ∃ t, exec i s = .next t ∧
        ∀ (k : Nat) (r : Fin 32), k < 3 → r.val = f.firstReg + k →
          elem (t.d r) (f.indexAlign.toNat / 2) 8 = s.mem.read ((s.r f.rn.toFin).toNat + k) ∧
          ∀ j, j < 64 → j / 8 ≠ f.indexAlign.toNat / 2 → (t.d r).getLsbD j = (s.d r).getLsbD j

/-- A failed condition: a valid form that is enabled completes with only `pc` and `ITSTATE` changed
(40_vld3_one_lane.md section 2). It completes so for T1, T2 and T3. -/
def Obligations.FailedConditionOnlyCompletes : Prop :=
  ∀ (i : Instr) (v : DecodeVars) (s : State),
    i.decoded = .valid v → Fails i.set s → advSIMDCheck s = .enabled → PcFits s →
      ∃ t, exec i s = .next t ∧ SameRegisters s t ∧ Completed i.set s t ∧ SameOutside s t ∧ t.draws = s.draws

/-- Base and index the same register: all three loads use the old value, and writeback doubles it modulo 2^32
(40_vld3_one_lane.md section 4, corner case (a)). -/
def Obligations.SameBaseAndIndexDoubles : Prop :=
  ∀ (i : Instr) (v : DecodeVars) (s : State),
    i.decoded = .valid v → Passes i.set s → CanLoad v s → v.m = v.n → v.m.val ≠ 13 →
      ∃ t, exec i s = .next t ∧ LanesLoaded v s t ∧ (t.r v.n).toNat = (2 * (s.r v.n).toNat) % 2 ^ 32

/-! ### Frames -/

/-- The frame of A1, A2, A3, T1, T2 and T3 for a valid form: when exec gives a next state, only the three lanes, the base
register with writeback, `pc`, and in T32 `ITSTATE` have changed; every byte of memory reads as before
(40_vld3_one_lane.md section 4). -/
def Obligations.FrameOfValidForms : Prop :=
  ∀ (i : Instr) (v : DecodeVars) (s t : State), i.decoded = .valid v → exec i s = .next t →
    SameOutside s t ∧ Completed i.set s t ∧
    (∀ r, r ≠ v.n ∨ v.wback = false → t.r r = s.r r) ∧
    (∀ r, NotLoaded v r → t.d r = s.d r) ∧
    (∀ (r : Fin 32) (j : Nat), j < 64 → (j < v.index * v.esize ∨ (v.index + 1) * v.esize ≤ j) →
      (t.d r).getLsbD j = (s.d r).getLsbD j) ∧
    ∀ a, t.mem.read a = s.mem.read a

/-- The frame of every word of the six encodings, valid or not: no execution changes memory, a flag, `T`, `sys`, a mark,
or a general-purpose register other than the one `Rn` names; and none with `Rm == 0b1111` changes that one. -/
def Obligations.FrameOfEveryWord : Prop :=
  ∀ (i : Instr) (s t : State), exec i s = .next t →
    SameOutside s t ∧ Completed i.set s t ∧
    (∀ r : Fin 16, r.val ≠ i.fields.rn.toNat → t.r r = s.r r) ∧
    (i.fields.rm = 15#4 → ∀ r, t.r r = s.r r) ∧
    ∀ a, t.mem.read a = s.mem.read a

/-- A1, A2 and A3 neither read nor write the flags and `ITSTATE`: with other flags and another `ITSTATE` the same
outcome follows, with those flags and that `ITSTATE` in it (40_vld3_one_lane.md section 2, flags). Where a word has several
admitted outcomes this is for one draw of the free choice (notes/assumptions/25). -/
def Obligations.A32IgnoresFlagsAndItstate : Prop :=
  ∀ (i : Instr) (s : State) (fl : Flags) (it : BitVec 8), i.set = .a32 →
    exec i { s with flags := fl, itstate := it } =
      andThen (exec i s) fun t => .next { t with flags := fl, itstate := it }

/-- What a valid form learns from memory is the `3*ebytes` bytes from the base address up: with any other memory that
holds the same bytes there the outcome is the same, but for memory (20_memory.md section 3). Where a skipped form has two
admitted outcomes this is for one draw of the free choice (notes/assumptions/25). -/
def Obligations.OnlyTheStructureIsRead : Prop :=
  ∀ (i : Instr) (v : DecodeVars) (s : State) (m : Memory), i.decoded = .valid v →
    (∀ a, baseAddress v s ≤ a → a < baseAddress v s + 3 * v.ebytes → m.read a = s.mem.read a) →
      exec i { s with mem := m } = andThen (exec i s) fun t => .next { t with mem := m }

/-! ### Faults -/

/-- Rule R88: after the decode of a valid form whose condition passes, the answer `Undefined` raises `Undefined`, the
answer `HypTrap` raises `HypTrap`, and with the answer `Enabled` neither fault is raised: execution goes on to the
element reads. -/
def Obligations.EnableCheckDecides : Prop :=
  ∀ (i : Instr) (v : DecodeVars) (s : State), i.decoded = .valid v → Passes i.set s →
    (advSIMDCheck s = .undefined → exec i s = .fault (.undefined s.pc)) ∧
    (advSIMDCheck s = .hypTrap → exec i s = .fault (.hypTrap s.pc)) ∧
    (advSIMDCheck s = .enabled → exec i s = loadStructure i.set v s)

/-- A word UNDEFINED by `index_align` whose condition passes raises `Undefined`; where the enable check answers
`HypTrap` it may raise that instead (40_vld3_one_lane.md section 4, exceptions). -/
def Obligations.UndefinedWordsFault : Prop :=
  ∀ (i : Instr) (s : State), i.decoded = .undefined → Passes i.set s →
    (advSIMDCheck s ≠ .hypTrap → exec i s = .fault (.undefined s.pc)) ∧
    (advSIMDCheck s = .hypTrap → exec i s = .fault (.undefined s.pc) ∨ exec i s = .fault (.hypTrap s.pc))

/-- A condition-failed word that is UNDEFINED, or whose enable check does not answer `Enabled`, either raises its fault
or completes with nothing but `pc`, `ITSTATE` and the model's own count of draws changed (40_vld3_one_lane.md section 2,
92_eei_decisions.md D10). -/
def Obligations.FailedConditionOnBadWords : Prop :=
  ∀ (i : Instr) (s : State), Fails i.set s → PcFits s →
    (i.decoded = .undefined ∨ ((∃ v, i.decoded = .valid v) ∧ advSIMDCheck s ≠ .enabled)) →
      ((i.decoded = .undefined ∨ advSIMDCheck s = .undefined) ∧ exec i s = .fault (.undefined s.pc)) ∨
      (advSIMDCheck s = .hypTrap ∧ exec i s = .fault (.hypTrap s.pc)) ∨
      ∃ t, exec i s = .next t ∧ SameRegisters s t ∧ Completed i.set s t ∧ SameOutside s t

/-- A misaligned structure under `StrictAlign` raises the alignment fault with the address of the first element
(20_memory.md section 2). -/
def Obligations.StrictAlignmentFaultsOnFirstElement : Prop :=
  ∀ (i : Instr) (v : DecodeVars) (s : State),
    i.decoded = .valid v → Passes i.set s → advSIMDCheck s = .enabled → Fits v s →
    strictAlign s = true → baseAddress v s % v.ebytes ≠ 0 →
      exec i s = .fault (.dataAbort s.pc .alignment (s.r v.n))

/-- A valid form of A1 or T1 never raises an alignment fault, in any state (a one-byte read is always aligned); nor does
a valid form of any encoding when `StrictAlign` is false (20_memory.md section 2, 40_vld3_one_lane.md section 1). The
words with `d3 > 31` are not valid forms: theirs may be drawn (notes/assumptions/5). -/
def Obligations.NoAlignmentFaultWithoutCause : Prop :=
  ∀ (i : Instr) (v : DecodeVars) (s : State) (pc addr : Word), i.decoded = .valid v →
    (v.ebytes = 1 ∨ strictAlign s = false) → exec i s ≠ .fault (.dataAbort pc .alignment addr)

/-- Where an alignment fault comes from, for every word and state: a valid form whose condition passes and that is
enabled, under `StrictAlign`, with a misaligned base address that the fault reports; or the Data Abort of any kind that the
spec admits for `d3 > 31` when the condition passes (20_memory.md section 2, 40_vld3_one_lane.md section 3; the policy is
the model's choice, notes/assumptions/5). -/
def Obligations.AlignmentFaultHasItsCause : Prop :=
  ∀ (i : Instr) (s : State) (pc addr : Word), exec i s = .fault (.dataAbort pc .alignment addr) →
    Passes i.set s ∧
      ((∃ v, i.decoded = .valid v ∧ advSIMDCheck s = .enabled ∧ strictAlign s = true ∧
          baseAddress v s % v.ebytes ≠ 0 ∧ addr = s.r v.n) ∨
        ∃ v, i.decoded = .unpredictableD3 v)

/-- The first element read, in ascending order of address, that `MemAdmit` does not admit decides: an abort is reported
with the address of that element, and a read without meaning is refused (20_memory.md sections 3 and 4). -/
def Obligations.FirstElementNotAdmittedDecides : Prop :=
  ∀ (i : Instr) (v : DecodeVars) (s : State) (k : Nat),
    i.decoded = .valid v → Passes i.set s → advSIMDCheck s = .enabled → Fits v s → Aligned v s →
    k < 3 → (∀ j, j < k → admitElement v s j = .ok) →
      (admitElement v s k = .abort →
        exec i s = .fault (.dataAbort s.pc .other (BitVec.ofNat 32 (baseAddress v s + k * v.ebytes)))) ∧
      (admitElement v s k = .notAdmitted → exec i s = .refused .memNotAdmitted)

/-- Every fault of any of the six encodings, and of a step from an unmarked state, records the `pc` of the instruction
that raised it (60_exceptions.md section 1). -/
def Obligations.FaultsRecordTheirPc : Prop :=
  (∀ (i : Instr) (s : State) (r : Fault), exec i s = .fault r → r.recordedPc = s.pc) ∧
  ∀ (s : State) (r : Fault), Unmarked s → step s = .fault r → r.recordedPc = s.pc

/-! ### UNPREDICTABLE forms and refusals -/

/-- The base register 15 is refused by all six encodings, condition passed or failed, unless the word is UNDEFINED;
also when `d3 > 31` (40_vld3_one_lane.md section 3, 30_encoding.md section 4). -/
def Obligations.BaseRegister15IsRefused : Prop :=
  ∀ (i : Instr) (s : State), i.fields.rn = 15#4 → i.decoded ≠ .undefined → Passes i.set s ∨ Fails i.set s →
    exec i s = .refused .unpredictableN15

/-- `d3 > 31` with `n != 15` whose condition passes (the model's choice of the policy `all_three`, notes/assumptions/5):
the outcome is one of the three behaviours the source lists, or the Data Abort the spec
admits beside them; every register but the base register is kept, and that one too without writeback. -/
def Obligations.RegisterListPastTheEnd : Prop :=
  ∀ (i : Instr) (v : DecodeVars) (s : State),
    i.decoded = .unpredictableD3 v → Passes i.set s → PcFits s →
      exec i s = .fault (.undefined s.pc) ∨
      (∃ t, exec i s = .next t ∧ Completed i.set s t ∧ SameOutside s t ∧
        ((∀ r, t.r r = s.r r) ∨ v.wback = true) ∧ (∀ r, r ≠ v.n → t.r r = s.r r)) ∨
      ∃ (kind : AbortKind) (o : Nat), o < 3 * v.ebytes ∧
        exec i s = .fault (.dataAbort s.pc kind (s.r v.n + BitVec.ofNat 32 o))

/-- `d3 > 31` with `n != 15` whose condition fails is refused, whatever the enable check answers and whatever the policy
(40_vld3_one_lane.md section 2, condition; 92_eei_decisions.md D10; the name of the refusal is the model's,
notes/assumptions/8). -/
def Obligations.SkippedPastTheEndIsRefused : Prop :=
  ∀ (i : Instr) (v : DecodeVars) (s : State),
    i.decoded = .unpredictableD3 v → Fails i.set s → exec i s = .refused .cunpredictableD3

/-- Each policy and each behaviour of `d3 > 31` by itself, for whatever behaviour is drawn (40_vld3_one_lane.md
section 3). -/
def Obligations.EachBehaviourPastTheEnd : Prop :=
  ∀ (set : InstrSet) (v : DecodeVars) (s : State), PcFits s → v.ebytes ≠ 0 →
    (∀ b, cunpredictableD3 .refuse b set v s = .refused .cunpredictableD3) ∧
    cunpredictableD3 .allThree .undefinedInstr set v s = .fault (.undefined s.pc) ∧
    (∃ t, cunpredictableD3 .allThree .nop set v s = .next t ∧ SameRegisters s t ∧ Completed set s t ∧ SameOutside s t) ∧
    (∃ t, cunpredictableD3 .allThree .unknown set v s = .next t ∧ Completed set s t ∧ SameOutside s t ∧
      (∀ r, t.d r = Config.unknownD s.draws r.val) ∧
      (v.wback = true → t.r v.n = Config.unknownBase s.draws) ∧
      ∀ r, r ≠ v.n ∨ v.wback = false → t.r r = s.r r) ∧
    ∀ kind offset, ∃ o, o < 3 * v.ebytes ∧
      cunpredictableD3 .allThree (.abortAt kind offset) set v s =
        .fault (.dataAbort s.pc kind (s.r v.n + BitVec.ofNat 32 o))

/-- A structure that would pass the top of the address space is refused before any element is read (20_memory.md
section 4; that the check precedes the reads is the model's reading, notes/assumptions/16). -/
def Obligations.StructurePastTheTopIsRefused : Prop :=
  ∀ (i : Instr) (v : DecodeVars) (s : State),
    i.decoded = .valid v → Passes i.set s → advSIMDCheck s = .enabled → ¬ Fits v s → exec i s = .refused .addrWrap

/-- An execution that could complete but for `pc` at the top of the address space is refused (10_state.md section 3). -/
def Obligations.PcAtTheTopIsRefused : Prop :=
  ∀ (i : Instr) (v : DecodeVars) (s : State),
    i.decoded = .valid v → ¬ PcFits s →
    ((Passes i.set s ∧ advSIMDCheck s = .enabled ∧ Fits v s ∧ Aligned v s ∧ Admitted v s) ∨
      (Fails i.set s ∧ advSIMDCheck s = .enabled)) →
      exec i s = .refused .pcWrap

/-- No execution is refused for any reason but the six the rules name; in particular every one of the six encodings has
a meaning. That `d3 > 31` is refused only when the condition fails, and never when it passes, rests on the model's choice
of the policy `all_three` (notes/assumptions/5). -/
def Obligations.RefusalsOfExecAreNamed : Prop :=
  ∀ (i : Instr) (s : State) (r : Refusal), exec i s = .refused r →
    r = .badItstate ∨ r = .unpredictableN15 ∨ r = .addrWrap ∨ r = .memNotAdmitted ∨ r = .pcWrap ∨
      (r = .cunpredictableD3 ∧ Fails i.set s ∧ ∃ v, i.decoded = .unpredictableD3 v)

/-! ### Steps -/

/-- A step runs the decoded instruction: from an unmarked state whose `pc` is aligned and whose four bytes exist, when
the bytes at `pc` decode to `i` in the instruction set of `T`, the step is exec of `i`; nothing is added around it. -/
def Obligations.StepRunsTheDecodedInstruction : Prop :=
  ∀ (s : State) (i : Instr) (rest : List Byte),
    Unmarked s → s.pc.toNat % pcAlign s.instrSet = 0 → s.pc.toNat + 4 ≤ 2 ^ 32 →
    decode s.instrSet (s.mem.bytes s.pc.toNat 4) = .ok (i, rest) → step s = exec i s

/-- The bytes an instruction is laid out as at `pc`, in its own instruction set, are the instruction the next step runs:
A32 words little-endian, T32 with the first halfword at the lower address (20_memory.md section 1). -/
def Obligations.StepRunsTheBytesAtPc : Prop :=
  ∀ (s : State) (i : Instr),
    Unmarked s → s.pc.toNat % pcAlign i.set = 0 → s.pc.toNat + 4 ≤ 2 ^ 32 → s.instrSet = i.set →
    (∀ k, k < 4 → some (s.mem.read (s.pc.toNat + k)) = (encode i)[k]?) → step s = exec i s

/-- The fetch refuses a `pc` that is not aligned, a `pc` whose four bytes do not all lie below 2^32 (in T32, `pc` 2 below
the top; the model's reading, notes/assumptions/17), and bytes that are none of the six encodings: such a word is refused
and not taken as UNDEFINED (10_state.md section 3, 30_encoding.md section 4). -/
def Obligations.FetchRefusals : Prop :=
  ∀ s : State, Unmarked s →
    (s.pc.toNat % pcAlign s.instrSet ≠ 0 → step s = .refused .pcMisaligned) ∧
    (s.pc.toNat % pcAlign s.instrSet = 0 → s.pc.toNat + 4 > 2 ^ 32 → step s = .refused .pcWrap) ∧
    (s.pc.toNat % pcAlign s.instrSet = 0 → s.pc.toNat + 4 ≤ 2 ^ 32 →
      (∀ i : Instr, i.set = s.instrSet →
        ∃ k, k < 4 ∧ some (s.mem.read (s.pc.toNat + k)) ≠ (encode i)[k]?) →
      step s = .refused .otherInstruction)

/-- Progress: from an unmarked state with an aligned `pc`, the bytes of a valid form at `pc` in its instruction set, and
everything that form needs, the step answers a next state at `pc + 4` that is unmarked again (70_reset_and_hazards.md
section 2). -/
def Obligations.LaunchPremisesGiveProgress : Prop :=
  ∀ (s : State) (i : Instr) (v : DecodeVars),
    Unmarked s → s.pc.toNat % pcAlign i.set = 0 → s.instrSet = i.set →
    (∀ k, k < 4 → some (s.mem.read (s.pc.toNat + k)) = (encode i)[k]?) →
    i.decoded = .valid v → advSIMDCheck s = .enabled → PcFits s →
    ((Passes i.set s ∧ CanLoad v s) ∨ Fails i.set s) →
      ∃ t, step s = .next t ∧ t.pc.toNat = s.pc.toNat + 4 ∧ Unmarked t

/-- No step changes memory, the flags, `T` or `sys` (the control registers, the mode, the Security state), in any state;
and a step only goes on from an unmarked state to an unmarked one, four bytes further. -/
def Obligations.StepsKeepMemoryFlagsAndMode : Prop :=
  ∀ s t : State, step s = .next t →
    Unmarked s ∧ Unmarked t ∧ t.mem = s.mem ∧ t.flags = s.flags ∧ t.t = s.t ∧ t.sys = s.sys ∧
    t.pc.toNat = s.pc.toNat + 4

/-- Register 15 of the register file is written by no step: the model may keep `pc` apart from it (10_state.md
section 2). -/
def Obligations.StepsNeverWriteR15 : Prop :=
  ∀ s t : State, step s = .next t → t.r 15 = s.r 15

/-- Every step keeps the invariant: canonical memory, aligned `pc`, an acceptable `ITSTATE`, zero in A32. -/
def Obligations.StepsKeepTheInvariant : Prop :=
  ∀ s t : State, Inv s → step s = .next t → Inv t

/-- The state after reset has the invariant (the values are the model's choice, notes/assumptions/11 to 14). -/
def Obligations.ResetHasTheInvariant : Prop := Inv State.reset

/-- After reset the two marks are clear, the only values the spec states (10_state.md section 9). -/
def Obligations.ResetMarksAreClear : Prop := Unmarked State.reset

/-- A fault or a refusal is terminal: from an unmarked state it leaves its own mark with the record of the outcome and no
other mark; however many steps follow, the marked state stays as it is and stops with the recorded reason; and a marked
state is never final (60_exceptions.md section 4, 00_scope.md section 4; the form is the model's, notes/assumptions/9). -/
def Obligations.MarksAreSticky : Prop :=
  (∀ (s : State) (k : Nat), Unmarked s →
    (∀ r, step s = .fault r →
      runMarked (k + 1) s = settle s (step s) ∧ (settle s (step s)).faulted = some r ∧
      (settle s (step s)).refused = none ∧ step (settle s (step s)) = .fault r) ∧
    ∀ r, step s = .refused r →
      runMarked (k + 1) s = settle s (step s) ∧ (settle s (step s)).refused = some r ∧
      (settle s (step s)).faulted = none ∧ step (settle s (step s)) = .refused r) ∧
  ∀ (s : State) (k : Nat), ¬ Unmarked s →
    (∀ t, step s ≠ .next t) ∧ runMarked k s = s ∧ ∀ base n, ¬ Final base n (runMarked k s)

/-- `Undefined` and `HypTrap` are precise: the marked state that is left differs from the state the instruction started in
by the mark and by `pc` only (60_exceptions.md sections 1 and 4, marked derived there; `pc` has no defined value,
10_state.md section 3). Of the state after a Data Abort nothing is stated but its marks (notes/assumptions/30). -/
def Obligations.PreciseFaultsKeepTheState : Prop :=
  ∀ (s : State) (pc : Word) (r : Fault), Unmarked s → r = .undefined pc ∨ r = .hypTrap pc → step s = .fault r →
    ∃ q : Word, settle s (step s) = { s with pc := q, faulted := some r }

/-- After `k` steps that all answer a next state, `pc` is `4*k` further, and memory, flags, `T` and `sys` are as they
were (70_reset_and_hazards.md section 5). -/
def Obligations.RunsAdvanceByFour : Prop :=
  ∀ (k : Nat) (s t : State), Host.Core.run Sys2Proof.core k s = .next t →
    t.pc.toNat = s.pc.toNat + 4 * k ∧ t.mem = s.mem ∧ t.flags = s.flags ∧ t.t = s.t ∧ t.sys = s.sys

/-- The end of a run: from an unmarked state at `base`, the state after `k` marked steps is final exactly when every one
of the `k` steps answered a next state (70_reset_and_hazards.md section 5). -/
def Obligations.FinalMeansEveryStepWasNext : Prop :=
  ∀ (k : Nat) (s : State), Unmarked s →
    (Final s.pc.toNat k (runMarked k s) ↔ ∃ t, Host.Core.run Sys2Proof.core k s = .next t)
end

