-- ==== Sys2Proof/Laws/State.lean ====
section
/-! SUPPORT. One lemma per field of the state per update of it, and the readers of registers after each update, so that
no proof unfolds a record update. -/

namespace Sys2Proof.Machine

variable (s : State)

/-! ### `State.setR` -/

@[simp] theorem State.setR_pc (i : Fin 16) (v : Word) : (s.setR i v).pc = s.pc := rfl
@[simp] theorem State.setR_flags (i : Fin 16) (v : Word) : (s.setR i v).flags = s.flags := rfl
@[simp] theorem State.setR_itstate (i : Fin 16) (v : Word) : (s.setR i v).itstate = s.itstate := rfl
@[simp] theorem State.setR_t (i : Fin 16) (v : Word) : (s.setR i v).t = s.t := rfl
@[simp] theorem State.setR_dregs (i : Fin 16) (v : Word) : (s.setR i v).dregs = s.dregs := rfl
@[simp] theorem State.setR_mem (i : Fin 16) (v : Word) : (s.setR i v).mem = s.mem := rfl
@[simp] theorem State.setR_sys (i : Fin 16) (v : Word) : (s.setR i v).sys = s.sys := rfl
@[simp] theorem State.setR_faulted (i : Fin 16) (v : Word) : (s.setR i v).faulted = s.faulted := rfl
@[simp] theorem State.setR_refused (i : Fin 16) (v : Word) : (s.setR i v).refused = s.refused := rfl
@[simp] theorem State.setR_draws (i : Fin 16) (v : Word) : (s.setR i v).draws = s.draws := rfl
@[simp] theorem State.setR_d (i : Fin 16) (v : Word) (j : Fin 32) : (s.setR i v).d j = s.d j := rfl

/-! ### `State.setD` -/

@[simp] theorem State.setD_regs (i : Fin 32) (v : DWord) : (s.setD i v).regs = s.regs := rfl
@[simp] theorem State.setD_pc (i : Fin 32) (v : DWord) : (s.setD i v).pc = s.pc := rfl
@[simp] theorem State.setD_flags (i : Fin 32) (v : DWord) : (s.setD i v).flags = s.flags := rfl
@[simp] theorem State.setD_itstate (i : Fin 32) (v : DWord) : (s.setD i v).itstate = s.itstate := rfl
@[simp] theorem State.setD_t (i : Fin 32) (v : DWord) : (s.setD i v).t = s.t := rfl
@[simp] theorem State.setD_mem (i : Fin 32) (v : DWord) : (s.setD i v).mem = s.mem := rfl
@[simp] theorem State.setD_sys (i : Fin 32) (v : DWord) : (s.setD i v).sys = s.sys := rfl
@[simp] theorem State.setD_faulted (i : Fin 32) (v : DWord) : (s.setD i v).faulted = s.faulted := rfl
@[simp] theorem State.setD_refused (i : Fin 32) (v : DWord) : (s.setD i v).refused = s.refused := rfl
@[simp] theorem State.setD_draws (i : Fin 32) (v : DWord) : (s.setD i v).draws = s.draws := rfl
@[simp] theorem State.setD_r (i : Fin 32) (v : DWord) (j : Fin 16) : (s.setD i v).r j = s.r j := rfl

/-! ### `State.setLane` -/

@[simp] theorem State.setLane_regs (k e esize : Nat) (w : BitVec esize) : (s.setLane k e esize w).regs = s.regs := rfl
@[simp] theorem State.setLane_pc (k e esize : Nat) (w : BitVec esize) : (s.setLane k e esize w).pc = s.pc := rfl
@[simp] theorem State.setLane_flags (k e esize : Nat) (w : BitVec esize) : (s.setLane k e esize w).flags = s.flags := rfl
@[simp] theorem State.setLane_itstate (k e esize : Nat) (w : BitVec esize) : (s.setLane k e esize w).itstate = s.itstate := rfl
@[simp] theorem State.setLane_t (k e esize : Nat) (w : BitVec esize) : (s.setLane k e esize w).t = s.t := rfl
@[simp] theorem State.setLane_mem (k e esize : Nat) (w : BitVec esize) : (s.setLane k e esize w).mem = s.mem := rfl
@[simp] theorem State.setLane_sys (k e esize : Nat) (w : BitVec esize) : (s.setLane k e esize w).sys = s.sys := rfl
@[simp] theorem State.setLane_faulted (k e esize : Nat) (w : BitVec esize) : (s.setLane k e esize w).faulted = s.faulted := rfl
@[simp] theorem State.setLane_refused (k e esize : Nat) (w : BitVec esize) : (s.setLane k e esize w).refused = s.refused := rfl
@[simp] theorem State.setLane_draws (k e esize : Nat) (w : BitVec esize) : (s.setLane k e esize w).draws = s.draws := rfl
@[simp] theorem State.setLane_r (k e esize : Nat) (w : BitVec esize) (j : Fin 16) : (s.setLane k e esize w).r j = s.r j := rfl

/-! ### `State.unknownDs` -/

@[simp] theorem State.unknownDs_regs : (s.unknownDs).regs = s.regs := rfl
@[simp] theorem State.unknownDs_pc : (s.unknownDs).pc = s.pc := rfl
@[simp] theorem State.unknownDs_flags : (s.unknownDs).flags = s.flags := rfl
@[simp] theorem State.unknownDs_itstate : (s.unknownDs).itstate = s.itstate := rfl
@[simp] theorem State.unknownDs_t : (s.unknownDs).t = s.t := rfl
@[simp] theorem State.unknownDs_mem : (s.unknownDs).mem = s.mem := rfl
@[simp] theorem State.unknownDs_sys : (s.unknownDs).sys = s.sys := rfl
@[simp] theorem State.unknownDs_faulted : (s.unknownDs).faulted = s.faulted := rfl
@[simp] theorem State.unknownDs_refused : (s.unknownDs).refused = s.refused := rfl
@[simp] theorem State.unknownDs_draws : (s.unknownDs).draws = s.draws := rfl
@[simp] theorem State.unknownDs_r (j : Fin 16) : (s.unknownDs).r j = s.r j := rfl

/-! ### `State.storeByte` -/

@[simp] theorem State.storeByte_regs (a : Word) (b : Byte) : (s.storeByte a b).regs = s.regs := rfl
@[simp] theorem State.storeByte_pc (a : Word) (b : Byte) : (s.storeByte a b).pc = s.pc := rfl
@[simp] theorem State.storeByte_flags (a : Word) (b : Byte) : (s.storeByte a b).flags = s.flags := rfl
@[simp] theorem State.storeByte_itstate (a : Word) (b : Byte) : (s.storeByte a b).itstate = s.itstate := rfl
@[simp] theorem State.storeByte_t (a : Word) (b : Byte) : (s.storeByte a b).t = s.t := rfl
@[simp] theorem State.storeByte_dregs (a : Word) (b : Byte) : (s.storeByte a b).dregs = s.dregs := rfl
@[simp] theorem State.storeByte_sys (a : Word) (b : Byte) : (s.storeByte a b).sys = s.sys := rfl
@[simp] theorem State.storeByte_faulted (a : Word) (b : Byte) : (s.storeByte a b).faulted = s.faulted := rfl
@[simp] theorem State.storeByte_refused (a : Word) (b : Byte) : (s.storeByte a b).refused = s.refused := rfl
@[simp] theorem State.storeByte_draws (a : Word) (b : Byte) : (s.storeByte a b).draws = s.draws := rfl
@[simp] theorem State.storeByte_r (a : Word) (b : Byte) (j : Fin 16) : (s.storeByte a b).r j = s.r j := rfl
@[simp] theorem State.storeByte_d (a : Word) (b : Byte) (j : Fin 32) : (s.storeByte a b).d j = s.d j := rfl

/-! ### `State.advance` -/

@[simp] theorem State.advance_regs (set : InstrSet) : (s.advance set).regs = s.regs := rfl
@[simp] theorem State.advance_flags (set : InstrSet) : (s.advance set).flags = s.flags := rfl
@[simp] theorem State.advance_t (set : InstrSet) : (s.advance set).t = s.t := rfl
@[simp] theorem State.advance_dregs (set : InstrSet) : (s.advance set).dregs = s.dregs := rfl
@[simp] theorem State.advance_mem (set : InstrSet) : (s.advance set).mem = s.mem := rfl
@[simp] theorem State.advance_sys (set : InstrSet) : (s.advance set).sys = s.sys := rfl
@[simp] theorem State.advance_faulted (set : InstrSet) : (s.advance set).faulted = s.faulted := rfl
@[simp] theorem State.advance_refused (set : InstrSet) : (s.advance set).refused = s.refused := rfl
@[simp] theorem State.advance_draws (set : InstrSet) : (s.advance set).draws = s.draws := rfl
@[simp] theorem State.advance_r (set : InstrSet) (j : Fin 16) : (s.advance set).r j = s.r j := rfl
@[simp] theorem State.advance_d (set : InstrSet) (j : Fin 32) : (s.advance set).d j = s.d j := rfl

/-! ### `State.tick` -/

@[simp] theorem State.tick_regs : (s.tick).regs = s.regs := rfl
@[simp] theorem State.tick_pc : (s.tick).pc = s.pc := rfl
@[simp] theorem State.tick_flags : (s.tick).flags = s.flags := rfl
@[simp] theorem State.tick_itstate : (s.tick).itstate = s.itstate := rfl
@[simp] theorem State.tick_t : (s.tick).t = s.t := rfl
@[simp] theorem State.tick_dregs : (s.tick).dregs = s.dregs := rfl
@[simp] theorem State.tick_mem : (s.tick).mem = s.mem := rfl
@[simp] theorem State.tick_sys : (s.tick).sys = s.sys := rfl
@[simp] theorem State.tick_faulted : (s.tick).faulted = s.faulted := rfl
@[simp] theorem State.tick_refused : (s.tick).refused = s.refused := rfl
@[simp] theorem State.tick_r (j : Fin 16) : (s.tick).r j = s.r j := rfl
@[simp] theorem State.tick_d (j : Fin 32) : (s.tick).d j = s.d j := rfl

/-! ### The fields an update writes -/

@[simp] theorem State.advance_pc (set : InstrSet) : (s.advance set).pc = s.pc + 4 := rfl
@[simp] theorem State.advance_itstate_a32 : (s.advance .a32).itstate = s.itstate := rfl
@[simp] theorem State.advance_itstate_t32 : (s.advance .t32).itstate = itAdvance s.itstate := rfl
@[simp] theorem State.tick_draws : s.tick.draws = s.draws + 1 := rfl
@[simp] theorem State.storeByte_mem (a : Word) (b : Byte) : (s.storeByte a b).mem = s.mem.write a.toNat b := rfl

/-- Reading a general-purpose register after writing one. -/
theorem State.r_setR (i j : Fin 16) (v : Word) : (s.setR i v).r j = if i = j then v else s.r j := by
  simp only [State.r, State.setR, Vector.getElem_set, Fin.ext_iff]

@[simp] theorem State.r_setR_self (i : Fin 16) (v : Word) : (s.setR i v).r i = v := by
  rw [State.r_setR, if_pos rfl]

theorem State.r_setR_of_ne {i j : Fin 16} (v : Word) (h : i ≠ j) : (s.setR i v).r j = s.r j := by
  rw [State.r_setR, if_neg h]

/-- Reading a D register after writing one. -/
theorem State.d_setD (i j : Fin 32) (v : DWord) : (s.setD i v).d j = if i = j then v else s.d j := by
  simp only [State.d, State.setD, Vector.getElem_set, Fin.ext_iff]

/-- Reading a D register after writing a lane of one. -/
theorem State.d_setLane (k e esize : Nat) (w : BitVec esize) (j : Fin 32) :
    (s.setLane k e esize w).d j = if dNum k = j then setElem (s.d j) e esize w else s.d j := by
  rw [State.setLane, State.d_setD]
  split
  · next h => rw [h]
  · rfl

@[simp] theorem State.unknownDs_d (j : Fin 32) : s.unknownDs.d j = Config.unknownD s.draws j.val := by
  simp [State.d, State.unknownDs, unknownFile]

/-- The only thing writeback changes is the base register (40_vld3_one_lane.md rule R90). -/
theorem r_writeback (v : DecodeVars) (j : Fin 16) :
    (writeback v s).r j = if v.wback = true ∧ v.n = j then writebackValue v s else s.r j := by
  unfold writeback
  by_cases hw : v.wback <;> simp [hw, State.r_setR]

@[simp] theorem writeback_pc (v : DecodeVars) : (writeback v s).pc = s.pc := by
  unfold writeback; split <;> rfl
@[simp] theorem writeback_flags (v : DecodeVars) : (writeback v s).flags = s.flags := by
  unfold writeback; split <;> rfl
@[simp] theorem writeback_itstate (v : DecodeVars) : (writeback v s).itstate = s.itstate := by
  unfold writeback; split <;> rfl
@[simp] theorem writeback_t (v : DecodeVars) : (writeback v s).t = s.t := by
  unfold writeback; split <;> rfl
@[simp] theorem writeback_dregs (v : DecodeVars) : (writeback v s).dregs = s.dregs := by
  unfold writeback; split <;> rfl
@[simp] theorem writeback_mem (v : DecodeVars) : (writeback v s).mem = s.mem := by
  unfold writeback; split <;> rfl
@[simp] theorem writeback_sys (v : DecodeVars) : (writeback v s).sys = s.sys := by
  unfold writeback; split <;> rfl
@[simp] theorem writeback_faulted (v : DecodeVars) : (writeback v s).faulted = s.faulted := by
  unfold writeback; split <;> rfl
@[simp] theorem writeback_refused (v : DecodeVars) : (writeback v s).refused = s.refused := by
  unfold writeback; split <;> rfl
@[simp] theorem writeback_draws (v : DecodeVars) : (writeback v s).draws = s.draws := by
  unfold writeback; split <;> rfl
@[simp] theorem writeback_d (v : DecodeVars) (j : Fin 32) : (writeback v s).d j = s.d j := by
  unfold writeback; split <;> rfl

/-- The only general-purpose register that becomes unknown is the base register (40_vld3_one_lane.md rule R94). -/
theorem r_scramble (v : DecodeVars) (j : Fin 16) :
    (scramble v s).r j = if v.wback = true ∧ v.n = j then Config.unknownBase s.draws else s.r j := by
  unfold scramble
  by_cases hw : v.wback <;> simp [hw, State.r_setR]

@[simp] theorem scramble_pc (v : DecodeVars) : (scramble v s).pc = s.pc := by
  unfold scramble; split <;> rfl
@[simp] theorem scramble_flags (v : DecodeVars) : (scramble v s).flags = s.flags := by
  unfold scramble; split <;> rfl
@[simp] theorem scramble_itstate (v : DecodeVars) : (scramble v s).itstate = s.itstate := by
  unfold scramble; split <;> rfl
@[simp] theorem scramble_t (v : DecodeVars) : (scramble v s).t = s.t := by
  unfold scramble; split <;> rfl
@[simp] theorem scramble_mem (v : DecodeVars) : (scramble v s).mem = s.mem := by
  unfold scramble; split <;> rfl
@[simp] theorem scramble_sys (v : DecodeVars) : (scramble v s).sys = s.sys := by
  unfold scramble; split <;> rfl
@[simp] theorem scramble_faulted (v : DecodeVars) : (scramble v s).faulted = s.faulted := by
  unfold scramble; split <;> rfl
@[simp] theorem scramble_refused (v : DecodeVars) : (scramble v s).refused = s.refused := by
  unfold scramble; split <;> rfl
@[simp] theorem scramble_draws (v : DecodeVars) : (scramble v s).draws = s.draws := by
  unfold scramble; split <;> rfl

@[simp] theorem scramble_d (v : DecodeVars) (j : Fin 32) :
    (scramble v s).d j = Config.unknownD s.draws j.val := by
  unfold scramble; split <;> simp

end Sys2Proof.Machine
end

