-- ==== Sys2Proof/Laws/Exec.lean ====
section
/-! SUPPORT. What each shared operation can do, said once: callers cite these and do not unfold the operations. -/

namespace Sys2Proof.Machine

/-! ### Sequencing -/

section
variable {α β : Type} {o : Result α} {f : α → Result β}

@[simp] theorem andThen_next (a : α) : andThen (.next a) f = f a := rfl
@[simp] theorem andThen_fault (r : Fault) : andThen (.fault r) f = .fault r := rfl
@[simp] theorem andThen_refused (r : Refusal) : andThen (.refused r) f = .refused r := rfl

theorem andThen_eq_next {b : β} : andThen o f = .next b ↔ ∃ a, o = .next a ∧ f a = .next b := by
  cases o <;> simp

theorem andThen_eq_fault {r : Fault} :
    andThen o f = .fault r ↔ o = .fault r ∨ ∃ a, o = .next a ∧ f a = .fault r := by
  cases o <;> simp

theorem andThen_eq_refused {r : Refusal} :
    andThen o f = .refused r ↔ o = .refused r ∨ ∃ a, o = .next a ∧ f a = .refused r := by
  cases o <;> simp

end

/-! ### Marks and the fetch -/

theorem ready_eq_next {s : State} {u : Unit} : ready s = .next u ↔ Unmarked s := by
  unfold ready Unmarked
  cases s.faulted <;> cases s.refused <;> simp

theorem ready_of_unmarked {s : State} (h : Unmarked s) : ready s = .next () := ready_eq_next.mpr h

/-- An unmarked machine is left in the next state, or with the mark of the stop; a marked one stays as it is. -/
theorem settle_next {s : State} (h : Unmarked s) (t : State) : settle s (.next t) = t := by
  simp [settle, ready_of_unmarked h]

theorem settle_fault {s : State} (h : Unmarked s) (r : Fault) :
    settle s (.fault r) = { afterFault s r with faulted := some r, refused := none } := by
  simp [settle, ready_of_unmarked h]

theorem settle_refused {s : State} (h : Unmarked s) (r : Refusal) :
    settle s (.refused r) = { Config.undefinedState s.draws with faulted := none, refused := some r } := by
  simp [settle, ready_of_unmarked h]

theorem settle_of_marked {s : State} (h : ¬ Unmarked s) (o : Result State) : settle s o = s := by
  cases hr : ready s with
  | next u => exact absurd (ready_eq_next.mp hr) h
  | fault r => simp [settle, hr]
  | refused r => simp [settle, hr]

/-- When the fetch gives an instruction: `pc` is aligned, the four bytes exist, and they decode to it. -/
theorem fetchInstr_eq_next {s : State} {i : Instr} :
    fetchInstr s = .next i ↔
      s.pc.toNat % pcAlign s.instrSet = 0 ∧ s.pc.toNat + 4 ≤ 2 ^ 32 ∧
        ∃ rest, decode s.instrSet (s.mem.bytes s.pc.toNat 4) = .ok (i, rest) := by
  unfold fetchInstr
  split
  · next h => simp [h]
  · next h =>
    split
    · next h2 => simp only [reduceCtorEq, false_iff]; omega
    · next h2 =>
      have h1 : s.pc.toNat % pcAlign s.instrSet = 0 := by simpa using h
      split
      · next j r hd =>
        have h3 : s.pc.toNat + 4 ≤ 2 ^ 32 := Nat.le_of_not_lt h2
        simp only [Host.Outcome.next.injEq, hd, Except.ok.injEq, Prod.mk.injEq]
        exact ⟨fun e => ⟨h1, h3, r, e, rfl⟩, fun e => e.2.2.choose_spec.1⟩
      · next e hd => simp [hd]

/-- The fetch never faults. -/
theorem fetchInstr_ne_fault {s : State} {r : Fault} : fetchInstr s ≠ .fault r := by
  unfold fetchInstr
  split
  · simp
  · split
    · simp
    · split <;> simp

/-- A step that goes on fetched an instruction from an unmarked state and executed it. -/
theorem step_eq_next {s t : State} :
    step s = .next t ↔ Unmarked s ∧ ∃ i, fetchInstr s = .next i ∧ exec i s = .next t := by
  simp only [step, andThen_eq_next, ready_eq_next]
  constructor
  · rintro ⟨_, h, i, hi⟩; exact ⟨h, i, hi⟩
  · rintro ⟨h, i, hi⟩; exact ⟨(), h, i, hi⟩

/-- `k + 1` steps are one step and then `k` (Host/Core.lean). -/
theorem run_succ (k : Nat) (s : State) :
    Host.Core.run Sys2Proof.core (k + 1) s = andThen (step s) fun t => Host.Core.run Sys2Proof.core k t := by
  have h := Host.Core.run.eq_2 Sys2Proof.core s k
  refine h.trans ?_
  have e : Sys2Proof.core.step s = step s := rfl
  rw [e]
  cases step s <;> rfl

theorem run_zero (s : State) : Host.Core.run Sys2Proof.core 0 s = .next s := rfl

/-! ### exec is the one Operation over the decode of its encoding -/

theorem exec_eq_execute (i : Instr) (s : State) : exec i s = execute i.set i.decoded s := by
  cases i <;> rfl

/-! ### Condition, enable check, completion -/

theorem condPassed_of_passes {set : InstrSet} {s : State} (h : Passes set s) : condPassed set s = .next true := by
  cases set with
  | a32 => rfl
  | t32 =>
    obtain ⟨c, hc, hh⟩ := h rfl
    simp [condPassed, hc, hh]

theorem condPassed_of_fails {set : InstrSet} {s : State} (h : Fails set s) : condPassed set s = .next false := by
  obtain ⟨rfl, c, hc, hh⟩ := h
  simp [condPassed, hc, hh]

theorem execute_of_passes {set : InstrSet} {s : State} (h : Passes set s) (dec : Decoded) :
    execute set dec s = executePassed set dec s := by
  simp [execute, condPassed_of_passes h]

theorem execute_of_fails {set : InstrSet} {s : State} (h : Fails set s) (dec : Decoded) :
    execute set dec s = executeSkipped set dec s := by
  simp [execute, condPassed_of_fails h]

/-- The condition passes, fails, or has no meaning (10_state.md rule R26). -/
theorem condition_cases (set : InstrSet) (s : State) :
    Passes set s ∨ Fails set s ∨ (set = .t32 ∧ currentCond s.itstate = none) := by
  cases set with
  | a32 => exact .inl nofun
  | t32 =>
    cases hc : currentCond s.itstate with
    | none => exact .inr (.inr ⟨rfl, rfl⟩)
    | some c =>
      cases hh : condHolds c s.flags with
      | true => exact .inl fun _ => ⟨c, hc, hh⟩
      | false => exact .inr (.inl ⟨rfl, c, hc, hh⟩)

theorem execute_of_badItstate {s : State} (h : currentCond s.itstate = none) (dec : Decoded) :
    execute .t32 dec s = .refused .badItstate := by
  simp [execute, condPassed, h, andThen]

theorem complete_of_fits {set : InstrSet} {s : State} (h : PcFits s) : complete set s = .next (s.advance set) :=
  if_pos h

theorem complete_of_not_fits {set : InstrSet} {s : State} (h : ¬ PcFits s) : complete set s = .refused .pcWrap :=
  if_neg h

theorem complete_eq_next {set : InstrSet} {s t : State} :
    complete set s = .next t ↔ PcFits s ∧ s.advance set = t := by
  unfold complete PcFits
  split <;> simp_all

theorem complete_ne_fault {set : InstrSet} {s : State} {r : Fault} : complete set s ≠ .fault r := by
  unfold complete; split <;> simp

theorem complete_eq_refused {set : InstrSet} {s : State} {r : Refusal} (h : complete set s = .refused r) :
    r = .pcWrap := by
  unfold complete at h; split at h <;> simp_all

theorem checkEnabled_of_enabled {s : State} (h : advSIMDCheck s = .enabled) : checkEnabled s = .next () := by
  simp [checkEnabled, h]

theorem advance_completed (s : State) (set : InstrSet) : Completed set s (s.advance set) := by
  cases set <;> exact ⟨rfl, rfl⟩

/-! ### Reading the elements -/

/-- The four steps of a read, as a chain of conditions (20_memory.md rule R44). -/
theorem memRead_eq (s : State) (addr n : Nat) :
    memRead s addr n =
      if addr + n > 2 ^ 32 then .refused .addrWrap
      else if strictAlign s = true ∧ addr % n ≠ 0 then .fault (.dataAbort s.pc .alignment (BitVec.ofNat 32 addr))
      else match memAdmit s addr n with
        | .abort => .fault (.dataAbort s.pc .other (BitVec.ofNat 32 addr))
        | .notAdmitted => .refused .memNotAdmitted
        | .ok => .next (assemble s.sys.dataBigEndian n (s.mem.bytes addr n)) := by
  cases h : memAdmit s addr n <;> simp [memRead, raise, dataBigEndian, h]

/-- A read that answers gives the bytes in memory. -/
theorem memRead_eq_next {s : State} {addr n : Nat} {w : BitVec (8 * n)} (h : memRead s addr n = .next w) :
    w = assemble s.sys.dataBigEndian n (s.mem.bytes addr n) := by
  rw [memRead_eq] at h
  split at h
  · simp at h
  · split at h
    · simp at h
    · split at h <;> simp_all

theorem memRead_of_ok {s : State} {addr n : Nat} (hf : addr + n ≤ 2 ^ 32)
    (ha : strictAlign s = true → addr % n = 0) (hm : memAdmit s addr n = .ok) :
    memRead s addr n = .next (assemble s.sys.dataBigEndian n (s.mem.bytes addr n)) := by
  rw [memRead_eq, if_neg (by omega), if_neg (fun h => h.2 (ha h.1)), hm]

theorem memRead_of_abort {s : State} {addr n : Nat} (hf : addr + n ≤ 2 ^ 32)
    (ha : strictAlign s = true → addr % n = 0) (hm : memAdmit s addr n = .abort) :
    memRead s addr n = .fault (.dataAbort s.pc .other (BitVec.ofNat 32 addr)) := by
  rw [memRead_eq, if_neg (by omega), if_neg (fun h => h.2 (ha h.1)), hm]

theorem memRead_of_notAdmitted {s : State} {addr n : Nat} (hf : addr + n ≤ 2 ^ 32)
    (ha : strictAlign s = true → addr % n = 0) (hm : memAdmit s addr n = .notAdmitted) :
    memRead s addr n = .refused .memNotAdmitted := by
  rw [memRead_eq, if_neg (by omega), if_neg (fun h => h.2 (ha h.1)), hm]

/-- Every fault of a read is a Data Abort at this `pc`; an alignment fault has its cause. -/
theorem memRead_eq_fault {s : State} {addr n : Nat} {r : Fault} (h : memRead s addr n = .fault r) :
    (r = .dataAbort s.pc .alignment (BitVec.ofNat 32 addr) ∧ strictAlign s = true ∧ addr % n ≠ 0) ∨
      r = .dataAbort s.pc .other (BitVec.ofNat 32 addr) := by
  rw [memRead_eq] at h
  split at h
  · simp at h
  · split at h
    · next hs => simp only [Host.Outcome.fault.injEq] at h; exact .inl ⟨h.symm, hs⟩
    · split at h <;> simp_all

theorem memRead_eq_refused {s : State} {addr n : Nat} {r : Refusal} (h : memRead s addr n = .refused r) :
    r = .addrWrap ∨ r = .memNotAdmitted := by
  rw [memRead_eq] at h
  split at h
  · simp_all
  · split at h
    · simp at h
    · split at h <;> simp_all

/-- The state with the three lanes loaded from memory. -/
def lanesFromMemory (v : DecodeVars) (s : State) : State :=
  ((s.setLane v.d v.index v.esize (element v s 0)).setLane v.d2 v.index v.esize (element v s 1)).setLane
    v.d3 v.index v.esize (element v s 2)

theorem element_eq (v : DecodeVars) (s : State) (k : Nat) :
    element v s k =
      assemble s.sys.dataBigEndian v.ebytes (s.mem.bytes (baseAddress v s + k * v.ebytes) v.ebytes) := rfl

/-- What the element reads and lane writes can do when they go on. -/
theorem loadLanes_eq_next {v : DecodeVars} {s t : State} (h : loadLanes v s = .next t) :
    Fits v s ∧ t = lanesFromMemory v s := by
  unfold loadLanes at h
  simp only at h
  split at h
  · simp at h
  · next hf =>
    simp only [andThen_eq_next] at h
    obtain ⟨v1, h1, v2, h2, v3, h3, h⟩ := h
    simp only [Host.Outcome.next.injEq] at h
    refine ⟨by unfold Fits baseAddress; omega, ?_⟩
    rw [← h, memRead_eq_next h1, memRead_eq_next h2, memRead_eq_next h3]
    simp only [lanesFromMemory, element_eq, baseAddress, Nat.zero_mul, Nat.one_mul, Nat.add_zero]

theorem aligned_element {v : DecodeVars} {s : State} (h : Aligned v s) (k : Nat) :
    strictAlign s = true → (baseAddress v s + k * v.ebytes) % v.ebytes = 0 := by
  intro hs
  rw [Nat.add_mul_mod_self_right]
  exact h hs

/-- The element reads answer when all are aligned and admitted and the structure fits. -/
theorem loadLanes_of_canLoad {v : DecodeVars} {s : State} (hf : Fits v s) (ha : Aligned v s) (hm : Admitted v s) :
    loadLanes v s = .next (lanesFromMemory v s) := by
  unfold Fits at hf
  have e : ∀ k, k < 3 → memRead s (baseAddress v s + k * v.ebytes) v.ebytes = .next (element v s k) := by
    intro k hk
    refine memRead_of_ok ?_ (aligned_element ha k) (hm k hk)
    have : k * v.ebytes ≤ 2 * v.ebytes := Nat.mul_le_mul_right _ (by omega)
    omega
  have e0 := e 0 (by omega)
  have e1 := e 1 (by omega)
  have e2 := e 2 (by omega)
  simp only [Nat.zero_mul, Nat.one_mul, Nat.add_zero, baseAddress] at e0 e1 e2 hf
  unfold loadLanes
  simp only [e0, e1, e2]
  rw [if_neg (by omega)]
  rfl

/-- Every fault of the element reads is a Data Abort of one of the three. -/
theorem loadLanes_eq_fault {v : DecodeVars} {s : State} {r : Fault} (h : loadLanes v s = .fault r) :
    ∃ k, k < 3 ∧ memRead s (baseAddress v s + k * v.ebytes) v.ebytes = .fault r := by
  unfold loadLanes at h
  simp only at h
  split at h
  · simp at h
  · simp only [andThen_eq_fault] at h
    rcases h with h | ⟨v1, h1, h | ⟨v2, h2, h | ⟨v3, h3, h⟩⟩⟩
    · exact ⟨0, by omega, by simpa [baseAddress] using h⟩
    · exact ⟨1, by omega, by simpa [baseAddress] using h⟩
    · exact ⟨2, by omega, by simpa [baseAddress] using h⟩
    · simp at h

theorem loadLanes_eq_refused {v : DecodeVars} {s : State} {r : Refusal} (h : loadLanes v s = .refused r) :
    r = .addrWrap ∨ r = .memNotAdmitted := by
  unfold loadLanes at h
  simp only at h
  split at h
  · simp_all
  · simp only [andThen_eq_refused] at h
    rcases h with h | ⟨v1, h1, h | ⟨v2, h2, h | ⟨v3, h3, h⟩⟩⟩
    · exact memRead_eq_refused h
    · exact memRead_eq_refused h
    · exact memRead_eq_refused h
    · simp at h

/-! ### A valid form -/

/-- The state a valid form completes in when its condition passes. -/
def loaded (set : InstrSet) (v : DecodeVars) (s : State) : State :=
  (writeback v (lanesFromMemory v s)).advance set

theorem loadStructure_eq_next {set : InstrSet} {v : DecodeVars} {s t : State} (h : loadStructure set v s = .next t) :
    PcFits s ∧ t = loaded set v s := by
  simp only [loadStructure, andThen_eq_next] at h
  obtain ⟨u, hu, h⟩ := h
  rw [(loadLanes_eq_next hu).2] at h
  obtain ⟨hp, ht⟩ := complete_eq_next.mp h
  exact ⟨by simpa [PcFits, lanesFromMemory] using hp, ht.symm⟩

theorem loadStructure_of_canLoad {set : InstrSet} {v : DecodeVars} {s : State} (h : CanLoad v s) :
    loadStructure set v s = .next (loaded set v s) := by
  obtain ⟨-, hf, ha, hm, hp⟩ := h
  unfold loadStructure
  rw [loadLanes_of_canLoad hf ha hm, andThen_next, complete_of_fits]
  · rfl
  · simpa [lanesFromMemory, PcFits] using hp

theorem executePassed_valid {set : InstrSet} {v : DecodeVars} {s : State} (h : advSIMDCheck s = .enabled) :
    executePassed set (.valid v) s = loadStructure set v s := by
  simp [executePassed, checkEnabled, h]

/-! ### All executions -/

theorem raiseUndefined_eq_fault (b : Bool) (s : State) :
    raiseUndefined b s = .fault (.undefined s.pc) ∨
      (advSIMDCheck s = .hypTrap ∧ raiseUndefined b s = .fault (.hypTrap s.pc)) := by
  unfold raiseUndefined raise
  split
  · next h => simp only [Bool.and_eq_true, decide_eq_true_eq] at h; exact .inr ⟨h.1, rfl⟩
  · exact .inl rfl

/-- The outcomes of `d3 > 31` under the policy of the model, whichever behaviour is drawn. -/
theorem drawD3_cases (set : InstrSet) (v : DecodeVars) (s : State) :
    drawD3 set v s = .fault (.undefined s.pc) ∨ drawD3 set v s = complete set s.tick ∨
      drawD3 set v s = complete set (scramble v s).tick ∨
      ∃ kind offset, drawD3 set v s =
        .fault (.dataAbort s.pc kind (s.r v.n + BitVec.ofNat 32 (offset % (3 * v.ebytes)))) := by
  simp only [drawD3, cunpredictableD3, Config.d3Policy]
  split
  · exact .inl rfl
  · exact .inr (.inl rfl)
  · exact .inr (.inr (.inl rfl))
  · exact .inr (.inr (.inr ⟨_, _, rfl⟩))

/-- Two admitted outcomes of a skipped word: the fault of its decode or enable check, or completion. -/
theorem faultOrComplete_cases {o : Result State} {s : State} (b : Bool) (set : InstrSet)
    (ho : o = .fault (.undefined s.pc) ∨ (advSIMDCheck s = .hypTrap ∧ o = .fault (.hypTrap s.pc))) :
    faultOrComplete b o set s = .fault (.undefined s.pc) ∨
      (advSIMDCheck s = .hypTrap ∧ faultOrComplete b o set s = .fault (.hypTrap s.pc)) ∨
      faultOrComplete b o set s = complete set s.tick := by
  unfold faultOrComplete
  split
  · exact ho.imp_right .inl
  · exact .inr (.inr rfl)

/-- Every execution is one of these: a refusal of the condition, of the base register 15; a fault of the decode or of the
enable check; a completion without effect; for `d3 > 31`, what is drawn when the condition passes and a refusal when it
fails; or the load of a valid form. -/
theorem execute_cases (set : InstrSet) (dec : Decoded) (s : State) :
    execute set dec s = .refused .badItstate ∨
    (dec = .unpredictableN15 ∧ execute set dec s = .refused .unpredictableN15) ∨
    execute set dec s = .fault (.undefined s.pc) ∨
    (advSIMDCheck s = .hypTrap ∧ execute set dec s = .fault (.hypTrap s.pc)) ∨
    execute set dec s = complete set s ∨
    execute set dec s = complete set s.tick ∨
    (∃ v, dec = .unpredictableD3 v ∧ ((Passes set s ∧ execute set dec s = drawD3 set v s) ∨
      (Fails set s ∧ execute set dec s = .refused .cunpredictableD3))) ∨
    ∃ v, dec = .valid v ∧ Passes set s ∧ advSIMDCheck s = .enabled ∧ execute set dec s = loadStructure set v s := by
  rcases condition_cases set s with hp | hf | ⟨rfl, hn⟩
  · rw [execute_of_passes hp]
    cases dec with
    | undefined =>
      rcases raiseUndefined_eq_fault (Config.trapsFirst s.draws) s with h | h
      · exact .inr (.inr (.inl h))
      · exact .inr (.inr (.inr (.inl h)))
    | unpredictableN15 => exact .inr (.inl ⟨rfl, rfl⟩)
    | unpredictableD3 v => exact .inr (.inr (.inr (.inr (.inr (.inr (.inl ⟨v, rfl, .inl ⟨hp, rfl⟩⟩))))))
    | valid v =>
      cases ha : advSIMDCheck s with
      | enabled => exact .inr (.inr (.inr (.inr (.inr (.inr (.inr ⟨v, rfl, hp, rfl, executePassed_valid ha⟩))))))
      | undefined => exact .inr (.inr (.inl (by simp [executePassed, checkEnabled, ha, raise])))
      | hypTrap => exact .inr (.inr (.inr (.inl ⟨rfl, by simp [executePassed, checkEnabled, ha, raise]⟩)))
  · rw [execute_of_fails hf]
    cases dec with
    | undefined =>
      rcases faultOrComplete_cases (Config.skippedFaults s.draws) set
        (raiseUndefined_eq_fault (Config.trapsFirst s.draws) s) with h | h | h
      · exact .inr (.inr (.inl h))
      · exact .inr (.inr (.inr (.inl h)))
      · exact .inr (.inr (.inr (.inr (.inr (.inl h)))))
    | unpredictableN15 => exact .inr (.inl ⟨rfl, rfl⟩)
    | unpredictableD3 v => exact .inr (.inr (.inr (.inr (.inr (.inr (.inl ⟨v, rfl, .inr ⟨hf, rfl⟩⟩))))))
    | valid v =>
      cases ha : advSIMDCheck s with
      | enabled => exact .inr (.inr (.inr (.inr (.inl (by simp [executeSkipped, ha])))))
      | undefined =>
        rcases faultOrComplete_cases (o := raise s .undefined) (Config.skippedFaults s.draws) set (.inl rfl)
          with h | h | h
        · exact .inr (.inr (.inl (by simpa [executeSkipped, ha] using h)))
        · rw [ha] at h; simp at h
        · exact .inr (.inr (.inr (.inr (.inr (.inl (by simpa [executeSkipped, ha] using h))))))
      | hypTrap =>
        rcases faultOrComplete_cases (o := raise s .hypTrap) (Config.skippedFaults s.draws) set (.inr ⟨ha, rfl⟩)
          with h | h | h
        · exact .inr (.inr (.inl (by simpa [executeSkipped, ha] using h)))
        · exact .inr (.inr (.inr (.inl ⟨rfl, by simpa [executeSkipped, ha] using h.2⟩)))
        · exact .inr (.inr (.inr (.inr (.inr (.inl (by simpa [executeSkipped, ha] using h))))))
  · exact .inl (execute_of_badItstate hn dec)

/-- Everything an execution that goes on can have done: loaded the structure of a valid form; only completed, with or
without a free choice used; or left registers unknown because `d3 > 31`. -/
theorem execute_eq_next {set : InstrSet} {dec : Decoded} {s t : State} (h : execute set dec s = .next t) :
    PcFits s ∧ ((∃ v, dec = .valid v ∧ t = loaded set v s) ∨ t = s.advance set ∨ t = s.tick.advance set ∨
      ∃ v, dec = .unpredictableD3 v ∧ t = (scramble v s).tick.advance set) := by
  rcases execute_cases set dec s with e | ⟨-, e⟩ | e | ⟨-, e⟩ | e | e |
    ⟨v, hd, ⟨-, e⟩ | ⟨-, e⟩⟩ | ⟨v, hd, -, -, e⟩ <;> rw [e] at h
  · simp at h
  · simp at h
  · simp at h
  · simp at h
  · obtain ⟨hp, ht⟩ := complete_eq_next.mp h
    exact ⟨hp, .inr (.inl ht.symm)⟩
  · obtain ⟨hp, ht⟩ := complete_eq_next.mp h
    exact ⟨hp, .inr (.inr (.inl ht.symm))⟩
  · rcases drawD3_cases set v s with e | e | e | ⟨_, _, e⟩ <;> rw [e] at h
    · simp at h
    · obtain ⟨hp, ht⟩ := complete_eq_next.mp h
      exact ⟨hp, .inr (.inr (.inl ht.symm))⟩
    · obtain ⟨hp, ht⟩ := complete_eq_next.mp h
      exact ⟨by simpa [PcFits] using hp, .inr (.inr (.inr ⟨v, hd, ht.symm⟩))⟩
    · simp at h
  · simp at h
  · obtain ⟨hp, ht⟩ := loadStructure_eq_next h
    exact ⟨hp, .inl ⟨v, hd, ht⟩⟩

/-! ### The loaded state, field by field -/

section
variable (set : InstrSet) (v : DecodeVars) (s : State)

@[simp] theorem lanesFromMemory_r (j : Fin 16) : (lanesFromMemory v s).r j = s.r j := rfl
@[simp] theorem lanesFromMemory_pc : (lanesFromMemory v s).pc = s.pc := rfl
@[simp] theorem lanesFromMemory_itstate : (lanesFromMemory v s).itstate = s.itstate := rfl
@[simp] theorem loaded_d (j : Fin 32) : (loaded set v s).d j = (lanesFromMemory v s).d j := by simp [loaded]

theorem loaded_r (j : Fin 16) :
    (loaded set v s).r j =
      if v.wback = true ∧ v.n = j then writebackValue v (lanesFromMemory v s) else s.r j := by
  simp [loaded, r_writeback]

theorem loaded_sameOutside : SameOutside s (loaded set v s) := by
  simp [SameOutside, loaded, lanesFromMemory]

theorem loaded_draws : (loaded set v s).draws = s.draws := by
  simp [loaded, lanesFromMemory]

theorem loaded_completed : Completed set s (loaded set v s) := by
  cases set <;> simp [Completed, loaded]

end

/-- The base register of a valid form is not 15. -/
theorem valid_n_ne {i : Instr} {v : DecodeVars} (h : i.decoded = .valid v ∨ i.decoded = .unpredictableD3 v) :
    v.n ≠ 15 := by
  have key : ∀ (dec : Decoded) (u : DecodeVars), dec = classify u →
      (dec = .valid v ∨ dec = .unpredictableD3 v) → v.n ≠ 15 := by
    intro dec u hd hv
    subst hd
    unfold classify at hv
    split at hv
    · simp at hv
    · split at hv <;> simp_all
  cases i <;> simp only [Instr.decoded, Fields.decode8, Fields.decode16, Fields.decode32] at h <;>
    (split at h <;> first | (simp at h; done) | exact key _ _ rfl h)

/-- A valid form's third register number is at most 31. -/
theorem valid_d3_le {i : Instr} {v : DecodeVars} (h : i.decoded = .valid v) : v.d3 ≤ 31 := by
  have key : ∀ (u : DecodeVars), classify u = .valid v → v.d3 ≤ 31 := by
    intro u hv
    unfold classify at hv
    split at hv
    · simp at hv
    · split at hv
      · simp at hv
      · next h3 => simp only [Decoded.valid.injEq] at hv; subst hv; omega
  cases i <;> simp only [Instr.decoded, Fields.decode8, Fields.decode16, Fields.decode32] at h <;>
    (split at h <;> first | (simp at h; done) | exact key _ h)

end Sys2Proof.Machine
end

