-- ==== Sys2Proof/Laws/Decode.lean ====
section
/-! SUPPORT. What the decode of the operand fields can give (30_encoding.md rules R64 to R67), and what the decoder of
words can give. -/

namespace Sys2Proof.Machine

/-- The variables of a decode that is not UNDEFINED and whose base register is not 15: computed from the fields, for one
of the three element sizes, with spacing 1 or 2 and a lane inside the register. -/
structure FieldVars (f : Fields) (v : DecodeVars) : Prop where
  eq_vars : v = f.vars v.ebytes v.index v.inc
  ebytes : v.ebytes = 1 ∨ v.ebytes = 2 ∨ v.ebytes = 4
  inc : v.inc = 1 ∨ v.inc = 2
  lane : (v.index + 1) * (8 * v.ebytes) ≤ 64

/-- `classify` hands on the variables it is given, unless `n == 15`. -/
theorem classify_eq {u v : DecodeVars} (h : classify u = .valid v ∨ classify u = .unpredictableD3 v) : u = v := by
  unfold classify at h
  split at h
  · simp at h
  · split at h <;> simpa using h

theorem decoded_fieldVars {i : Instr} {v : DecodeVars} (h : i.decoded = .valid v ∨ i.decoded = .unpredictableD3 v) :
    FieldVars i.fields v := by
  have key8 : ∀ f : Fields, (f.decode8 = .valid v ∨ f.decode8 = .unpredictableD3 v) → FieldVars f v := by
    intro f h
    unfold Fields.decode8 at h
    split at h
    · simp at h
    · obtain rfl := classify_eq h
      refine ⟨rfl, by simp [Fields.vars], by simp [Fields.vars], ?_⟩
      have := (f.indexAlign.extractLsb' 1 3).isLt
      simp only [Fields.vars] at this ⊢
      omega
  have key16 : ∀ f : Fields, (f.decode16 = .valid v ∨ f.decode16 = .unpredictableD3 v) → FieldVars f v := by
    intro f h
    unfold Fields.decode16 at h
    split at h
    · simp at h
    · obtain rfl := classify_eq h
      refine ⟨rfl, by simp [Fields.vars], by simp only [Fields.vars]; split <;> simp, ?_⟩
      have := (f.indexAlign.extractLsb' 2 2).isLt
      simp only [Fields.vars] at this ⊢
      omega
  have key32 : ∀ f : Fields, (f.decode32 = .valid v ∨ f.decode32 = .unpredictableD3 v) → FieldVars f v := by
    intro f h
    unfold Fields.decode32 at h
    split at h
    · simp at h
    · obtain rfl := classify_eq h
      refine ⟨rfl, by simp [Fields.vars], by simp only [Fields.vars]; split <;> simp, ?_⟩
      have := (f.indexAlign.extractLsb' 3 1).isLt
      simp only [Fields.vars] at this ⊢
      omega
  cases i with
  | vld3A1 f => exact key8 f h
  | vld3A2 f => exact key16 f h
  | vld3A3 f => exact key32 f h
  | vld3T1 f => exact key8 f h
  | vld3T2 f => exact key16 f h
  | vld3T3 f => exact key32 f h

section
variable {f : Fields} {v : DecodeVars} (h : FieldVars f v)
include h

theorem FieldVars.n_eq : v.n = f.rn.toFin := congrArg DecodeVars.n h.eq_vars
theorem FieldVars.m_eq : v.m = f.rm.toFin := congrArg DecodeVars.m h.eq_vars
theorem FieldVars.d_eq : v.d = (f.dBit ++ f.vd).toNat := congrArg DecodeVars.d h.eq_vars

end

/-- The D register a number at most 31 names. -/
theorem dNum_eq_iff {k : Nat} (hk : k ≤ 31) (j : Fin 32) : dNum k = j ↔ j.val = k := by
  simp only [dNum, Fin.ext_iff, Fin.ofNat]
  rw [Nat.mod_eq_of_lt (by omega), eq_comm]

/-- What the decoder gives belongs to the instruction set it was asked for. -/
theorem decodeWord_set {set : InstrSet} {w : Word} {i : Instr} (h : decodeWord set w = some i) : i.set = set := by
  unfold decodeWord at h
  split at h
  · next r hr =>
    have hm := List.mem_of_find?_eq_some hr
    have hp := List.find?_some hr
    simp only [Bool.and_eq_true, decide_eq_true_eq] at hp
    simp only [Option.some.injEq] at h
    rw [← h, ← hp.1]
    simp only [opcodeRows, List.mem_cons, List.not_mem_nil, or_false] at hm
    rcases hm with rfl | rfl | rfl | rfl | rfl | rfl <;> rfl
  · simp at h

theorem decode_set {set : InstrSet} {bs rest : List Byte} {i : Instr} (h : decode set bs = .ok (i, rest)) :
    i.set = set := by
  unfold decode at h
  split at h
  · simp only at h
    split at h
    · next hd => simp only [Except.ok.injEq, Prod.mk.injEq] at h; rw [← h.1]; exact decodeWord_set hd
    · split at h
      · simp at h
      · split at h <;> simp at h
  · simp at h

end Sys2Proof.Machine
end

