-- ==== Sys2Proof/Laws/Memory.lean ====
section
/-! SUPPORT. Memory: a byte read after a write, and that every memory operation keeps the canonical form
(10_state.md rule R32; notes/assumptions/14). -/

namespace Sys2Proof.Machine

@[simp] theorem Memory.read_nil (a : Nat) : Memory.read [] a = Memory.unlisted := rfl

theorem Memory.read_cons (k : Nat) (b : Byte) (m : Memory) (a : Nat) :
    Memory.read ((k, b) :: m) a = if k = a then b else Memory.read m a := rfl

/-- Below its first address a list in canonical form lists nothing. -/
theorem Memory.read_of_lt {lo : Nat} {m : Memory} (h : Memory.wfFrom lo m = true) {a : Nat} (ha : a < lo) :
    m.read a = Memory.unlisted := by
  induction m generalizing lo with
  | nil => rfl
  | cons c m ih =>
    obtain ⟨k, b⟩ := c
    simp only [Memory.wfFrom, Bool.and_eq_true, decide_eq_true_eq] at h
    rw [Memory.read_cons, if_neg (by omega), ih h.2 (by omega)]

/-- A canonical list is canonical from any lower address. -/
theorem Memory.wfFrom_mono {lo lo' : Nat} {m : Memory} (h : Memory.wfFrom lo m = true) (hl : lo' ≤ lo) :
    Memory.wfFrom lo' m = true := by
  cases m with
  | nil => rfl
  | cons c m =>
    obtain ⟨k, b⟩ := c
    simp only [Memory.wfFrom, Bool.and_eq_true, decide_eq_true_eq] at h ⊢
    exact ⟨⟨⟨by omega, h.1.1.2⟩, h.1.2⟩, h.2⟩

/-- A cell in front of a list that starts above it keeps the form. -/
theorem Memory.wfFrom_push {lo a : Nat} {m : Memory} (b : Byte) (hlo : lo ≤ a) (ha : a < 2 ^ 32)
    (h : Memory.wfFrom (a + 1) m = true) : Memory.wfFrom lo (Memory.push a b m) = true := by
  unfold Memory.push
  split
  · exact Memory.wfFrom_mono h (by omega)
  · next hb =>
    simp only [Memory.wfFrom, Bool.and_eq_true, decide_eq_true_eq]
    exact ⟨⟨⟨hlo, ha⟩, hb⟩, h⟩

/-- Writing a byte keeps the form from any address at or below it. -/
theorem Memory.wfFrom_write {lo : Nat} {m : Memory} (h : Memory.wfFrom lo m = true) {a : Nat} (b : Byte)
    (hlo : lo ≤ a) (ha : a < 2 ^ 32) : Memory.wfFrom lo (m.write a b) = true := by
  induction m generalizing lo with
  | nil => exact Memory.wfFrom_push b hlo ha rfl
  | cons c m ih =>
    obtain ⟨k, x⟩ := c
    have h' := h
    simp only [Memory.wfFrom, Bool.and_eq_true, decide_eq_true_eq] at h'
    obtain ⟨⟨⟨hk, hk'⟩, hx⟩, hm⟩ := h'
    unfold Memory.write
    split
    · refine Memory.wfFrom_push b hlo ha ?_
      simp only [Memory.wfFrom, Bool.and_eq_true, decide_eq_true_eq]
      exact ⟨⟨⟨by omega, hk'⟩, hx⟩, hm⟩
    · split
      · next hak => subst hak; exact Memory.wfFrom_push b hlo ha hm
      · simp only [Memory.wfFrom, Bool.and_eq_true, decide_eq_true_eq]
        exact ⟨⟨⟨hk, hk'⟩, hx⟩, ih hm (by omega)⟩

/-- Writing a byte of the address space keeps the canonical form. -/
theorem Memory.wf_write {m : Memory} (h : m.wf = true) {a : Nat} (b : Byte) (ha : a < 2 ^ 32) :
    (m.write a b).wf = true := Memory.wfFrom_write h b (Nat.zero_le a) ha

/-- A byte in front of a list that starts above it. -/
theorem Memory.read_push {a : Nat} {m : Memory} (b : Byte) (h : Memory.wfFrom (a + 1) m = true) (x : Nat) :
    (Memory.push a b m).read x = if a = x then b else m.read x := by
  unfold Memory.push
  split
  · next hb =>
    split
    · next hax => rw [hb, ← hax, Memory.read_of_lt h (by omega)]
    · rfl
  · exact Memory.read_cons a b m x

/-- Reading a byte after a write: the byte written at its address, the old byte everywhere else. -/
theorem Memory.read_writeFrom {lo : Nat} {m : Memory} (h : Memory.wfFrom lo m = true) (a : Nat) (b : Byte) (x : Nat) :
    (m.write a b).read x = if a = x then b else m.read x := by
  induction m generalizing lo with
  | nil => exact Memory.read_push b rfl x
  | cons c m ih =>
    obtain ⟨k, y⟩ := c
    have h' := h
    simp only [Memory.wfFrom, Bool.and_eq_true, decide_eq_true_eq] at h'
    obtain ⟨⟨⟨hk, hk'⟩, hx⟩, hm⟩ := h'
    unfold Memory.write
    split
    · rw [Memory.read_push]
      simp only [Memory.wfFrom, Bool.and_eq_true, decide_eq_true_eq]
      exact ⟨⟨⟨by omega, hk'⟩, hx⟩, hm⟩
    · split
      · next hak =>
        subst hak
        rw [Memory.read_push b hm, Memory.read_cons]
        split <;> rfl
      · next hne =>
        rw [Memory.read_cons, Memory.read_cons, ih hm]
        split
        · next hkx => rw [if_neg (by omega)]
        · rfl

/-- Reading after a write, for memory in canonical form. -/
theorem Memory.read_write {m : Memory} (h : m.wf = true) (a : Nat) (b : Byte) (x : Nat) :
    (m.write a b).read x = if a = x then b else m.read x := Memory.read_writeFrom h a b x

/-- Storing a byte keeps the canonical form. -/
theorem State.wf_storeByte {s : State} (h : s.mem.wf = true) (a : Word) (b : Byte) : (s.storeByte a b).mem.wf = true :=
  Memory.wf_write h b a.isLt

/-- Storing bytes keeps the canonical form. -/
theorem State.wf_storeBytes {s : State} (h : s.mem.wf = true) (a : Word) (bs : List Byte) :
    (s.storeBytes a bs).mem.wf = true := by
  induction bs generalizing s a with
  | nil => exact h
  | cons b bs ih => exact ih (State.wf_storeByte h a b) (a + 1)

/-- Placing an instruction keeps the canonical form. -/
theorem State.wf_withFetchWord {s : State} (h : s.mem.wf = true) (nbits w : Nat) :
    (s.withFetchWord nbits w).mem.wf = true :=
  State.wf_storeBytes (s := { s with t := decide ((tableSet (BitVec.ofNat 32 (w % 2 ^ nbits))).getD s.instrSet = .t32) })
    h _ _

/-- Memory right after reset has the canonical form. -/
theorem State.reset_mem_wf : State.reset.mem.wf = true := rfl

/-- Equal bytes from an address up read equal. -/
theorem Memory.bytes_congr {m m' : Memory} {a n : Nat} (h : ∀ k, k < n → m.read (a + k) = m'.read (a + k)) :
    m.bytes a n = m'.bytes a n := by
  unfold Memory.bytes
  exact List.map_congr_left fun k hk => h k (List.mem_range.mp hk)

@[simp] theorem Memory.length_bytes (m : Memory) (a n : Nat) : (m.bytes a n).length = n := by simp [Memory.bytes]

theorem Memory.getElem_bytes (m : Memory) (a n k : Nat) (h : k < (m.bytes a n).length) :
    (m.bytes a n)[k] = m.read (a + k) := by simp [Memory.bytes]

end Sys2Proof.Machine
end

