-- ==== Sys2Proof/Laws/PerInstr.lean ====
section
/-! SUPPORT. What the encoding of every instruction is, one lemma per constructor: four bytes, its row's constant bits, and
its operand fields where the tables of 30_encoding.md rules R61 and R62 put them. -/

namespace Sys2Proof.Laws

/-- The operand fields stand in the word where they are read from. -/
theorem fieldsOf_encodeCells (top : BitVec 8) (size : BitVec 2) (f : Fields) :
    fieldsOf (encodeCells top size f) = f := by
  obtain ⟨dBit, rn, vd, ia, rm⟩ := f
  simp only [fieldsOf, encodeCells, Fields.mk.injEq]
  refine ⟨?_, ?_, ?_, ?_, ?_⟩ <;>
  · apply BitVec.eq_of_getLsbD_eq
    intro j hj
    simp only [BitVec.getLsbD_extractLsb', BitVec.getLsbD_append]
    rcases j with _ | _ | _ | _ | j <;> first | omega | simp

/-- The constant cells and the `size` cell are those of the diagram. -/
theorem encodeCells_and_mask (top : BitVec 8) (size : BitVec 2) (f : Fields) :
    encodeCells top size f &&& 0xFFB00F00#32 = top ++ 0b101000000000#12 ++ size ++ 0b1000000000#10 := by
  obtain ⟨dBit, rn, vd, ia, rm⟩ := f
  simp only [encodeCells]
  apply BitVec.eq_of_getLsbD_eq
  intro j hj
  simp only [BitVec.getLsbD_and, BitVec.getLsbD_append]
  have : j < 32 := hj
  interval_cases j <;> simp

namespace EncodedRow

/-- The match value of the instruction's row (30_encoding.md rule R68). -/
def rowPattern : Instr → Word
  | .vld3A1 _ => 0xF4A00200#32
  | .vld3A2 _ => 0xF4A00600#32
  | .vld3A3 _ => 0xF4A00A00#32
  | .vld3T1 _ => 0xF9A00200#32
  | .vld3T2 _ => 0xF9A00600#32
  | .vld3T3 _ => 0xF9A00A00#32

/-- The encoding of an instruction: four bytes, the row's constant bits, the operand fields. -/
def Statement (i : Instr) : Prop :=
  (encode i).length = 4 ∧ encodeWord i &&& 0xFFB00F00#32 = rowPattern i ∧ fieldsOf (encodeWord i) = i.fields

theorem vld3A1 (f : Fields) : Statement (.vld3A1 f) :=
  ⟨rfl, (encodeCells_and_mask _ _ f).trans (by simp only [rowPattern]; decide), fieldsOf_encodeCells _ _ f⟩

theorem vld3A2 (f : Fields) : Statement (.vld3A2 f) :=
  ⟨rfl, (encodeCells_and_mask _ _ f).trans (by simp only [rowPattern]; decide), fieldsOf_encodeCells _ _ f⟩

theorem vld3A3 (f : Fields) : Statement (.vld3A3 f) :=
  ⟨rfl, (encodeCells_and_mask _ _ f).trans (by simp only [rowPattern]; decide), fieldsOf_encodeCells _ _ f⟩

theorem vld3T1 (f : Fields) : Statement (.vld3T1 f) :=
  ⟨rfl, (encodeCells_and_mask _ _ f).trans (by simp only [rowPattern]; decide), fieldsOf_encodeCells _ _ f⟩

theorem vld3T2 (f : Fields) : Statement (.vld3T2 f) :=
  ⟨rfl, (encodeCells_and_mask _ _ f).trans (by simp only [rowPattern]; decide), fieldsOf_encodeCells _ _ f⟩

theorem vld3T3 (f : Fields) : Statement (.vld3T3 f) :=
  ⟨rfl, (encodeCells_and_mask _ _ f).trans (by simp only [rowPattern]; decide), fieldsOf_encodeCells _ _ f⟩

theorem all (i : Instr) : Statement i := by
  cases i with
  | vld3A1 f => exact vld3A1 f
  | vld3A2 f => exact vld3A2 f
  | vld3A3 f => exact vld3A3 f
  | vld3T1 f => exact vld3T1 f
  | vld3T2 f => exact vld3T2 f
  | vld3T3 f => exact vld3T3 f

end EncodedRow

end Sys2Proof.Laws
end

