-- ==== Sys2Proof/Tests/Slice0.lean ====
section
/-! SUPPORT. Tests on small states. Expected values come from the spec: the encoding, decode and execution vectors of
95_test_vectors.md (E, V, X numbers), which are derived there from the rules. Then, for every statement with hypotheses,
a witness that meets them together. -/

namespace Sys2Proof.Tests
open Sys2Proof Sys2Proof.Machine

/-! ### Observers and small states -/

/-- The outcome is a next state with a property. -/
def goesTo (o : Result State) (p : State → Bool) : Bool :=
  match o with
  | .next t => p t
  | _ => false

/-- The outcome is this fault. -/
def faults (o : Result State) (r : Fault) : Bool :=
  match o with
  | .fault q => decide (q = r)
  | _ => false

/-- The outcome is this refusal. -/
def refuses (o : Result State) (r : Refusal) : Bool :=
  match o with
  | .refused q => decide (q = r)
  | _ => false

theorem next_of_goesTo {o : Result State} {p : State → Bool} (h : goesTo o p = true) : ∃ t, o = .next t := by
  cases o with
  | next t => exact ⟨t, rfl⟩
  | fault r => simp [goesTo] at h
  | refused r => simp [goesTo] at h

theorem eq_of_faults {o : Result State} {r : Fault} (h : faults o r = true) : o = .fault r := by
  cases o <;> simp_all [faults]

theorem eq_of_refuses {o : Result State} {r : Refusal} (h : refuses o r = true) : o = .refused r := by
  cases o <;> simp_all [refuses]

/-- Reset with `pc` and a pattern laid out there in the instruction set of its row. -/
def placed (pc : Word) (w : Nat) : State := State.withFetchWord { State.reset with pc := pc } 32 w

/-- The start state of vector X1, with a pattern placed at `0x100`. -/
def startX1 (w : Nat) : State :=
  ((((placed 0x100#32 w).setR 0 0x1000#32).setD 1 0xFFFFFFFFFFFFFFFF#64).setD 2 0x0102030405060708#64).storeBytes
    0x1000#32 [0x11#8, 0x22#8, 0x33#8]

/-- The start state of vectors X4 and X5. -/
def startX4 (bigEndian : Bool) : State :=
  let s := (((placed 0x100#32 0xF4A146A2).setR 1 0x2000#32).setR 2 0x10#32).storeBytes 0x2000#32
    [0x34#8, 0x12#8, 0x78#8, 0x56#8, 0xBC#8, 0x9A#8]
  { s with sys := { s.sys with dataBigEndian := bigEndian } }

/-- The start state of vectors X6 and X7. -/
def startX6 (strict : Bool) : State :=
  let s := ((((placed 0x100#32 0xF4A146CF).setR 1 0x2001#32).setD 4 0x1111111111111111#64).setD 5
    0x2222222222222222#64).storeBytes 0x2001#32 [0x34#8, 0x12#8, 0x78#8, 0x56#8, 0xBC#8, 0x9A#8]
  { s with sys := { s.sys with strictAlign := strict } }

/-- The start state of vector X8. -/
def startX8 : State :=
  ((((placed 0x100#32 0xF4A41A44).setR 4 0x3000#32).setD 1 0xAAAAAAAAAAAAAAAA#64).setD 5 0xCCCCCCCCCCCCCCCC#64).storeBytes
    0x3000#32 [1#8, 0#8, 0#8, 0#8, 2#8, 0#8, 0#8, 0#8, 3#8, 0#8, 0#8, 0#8]

/-- The start state of vectors X9 to X11, by the value of `R3` and the answer of `MemAdmit` from `0x1000` up. -/
def startX9 (base : Word) (answer : AdmitAnswer) : State :=
  let s := ((placed 0x100#32 0xF4E30A8D).setR 3 base).storeBytes 0xFFFFFFF4#32
    [1#8, 2#8, 3#8, 4#8, 5#8, 6#8, 7#8, 8#8, 9#8, 10#8, 11#8, 12#8]
  { s with sys := { s.sys with regions := [{ base := 0x1000, length := 0x10000, width := none, answer := answer }] } }

/-- The start state of vectors X13 and X14, by the flag `Z`. -/
def startX13 (z : Bool) : State :=
  let s := ((placed 0x200#32 0xF9ED1ACD).setR 13 0x8000#32).setD 17 0x11111111#64
  State.storeBytes { s with itstate := 0b00001000#8, flags := { s.flags with z := z } } 0x8000#32
    [0x78#8, 0x56#8, 0x34#8, 0x12#8, 0xF0#8, 0xDE#8, 0xBC#8, 0x9A#8, 0xEF#8, 0xBE#8, 0xAD#8, 0xDE#8]

/-- A state whose enable check answers as said. -/
def withEnable (a : EnableAnswer) (s : State) : State :=
  { s with sys := { s.sys with enableTable := [{ settings := s.sys.regs, answer := a }] } }

/-! ### WellFormed refuses an ill-formed term for each check (30_encoding.md rules R69 and R71) -/

/-- Vectors V2, V3 and V4 with V5: the must-be-zero bits of each size; beside each the nearest accepted form. -/
theorem test_wellFormed_indexAlign :
    Instr.wellFormed (.vld3A1 ⟨0, 0, 0, 0b0001, 15⟩) = false ∧ Instr.wellFormed (.vld3A1 ⟨0, 0, 0, 0b0000, 15⟩) = true ∧
    Instr.wellFormed (.vld3T2 ⟨0, 0, 0, 0b0001, 15⟩) = false ∧ Instr.wellFormed (.vld3T2 ⟨0, 0, 0, 0b0010, 15⟩) = true ∧
    Instr.wellFormed (.vld3A3 ⟨0, 0, 0, 0b0001, 15⟩) = false ∧ Instr.wellFormed (.vld3A3 ⟨0, 0, 0, 0b0010, 15⟩) = false ∧
    Instr.wellFormed (.vld3A3 ⟨0, 0, 0, 0b0100, 15⟩) = true := by decide

/-- Vector V9: base register 15. -/
theorem test_wellFormed_base :
    Instr.wellFormed (.vld3A1 ⟨0, 15, 0, 0, 15⟩) = false ∧ Instr.wellFormed (.vld3A1 ⟨0, 14, 0, 0, 15⟩) = true := by
  decide

/-- Vectors V10 to V14: the third register number. -/
theorem test_wellFormed_range :
    Instr.wellFormed (.vld3A1 ⟨1, 0, 14, 0, 15⟩) = false ∧ Instr.wellFormed (.vld3A1 ⟨1, 0, 13, 0, 15⟩) = true ∧
    Instr.wellFormed (.vld3A2 ⟨1, 0, 12, 0b0010, 15⟩) = false ∧ Instr.wellFormed (.vld3A2 ⟨1, 0, 11, 0b0010, 15⟩) = true ∧
    Instr.wellFormed (.vld3A3 ⟨1, 0, 15, 0, 15⟩) = false ∧ Instr.wellFormed (.vld3A3 ⟨1, 0, 13, 0, 15⟩) = true := by
  decide

/-! ### Decoding: one word of each encoding written out from its diagram (30_encoding.md rules R61 and R62) -/

/-- E4: 1111 0100 1 D=1 10 Rn=1101 Vd=1101 size=00 10 index_align=1110 Rm=0010. -/
theorem test_decode_A1 :
    decodeWord .a32 0b11110100111011011101001011100010#32 =
      some (.vld3A1 { dBit := 1, rn := 0b1101, vd := 0b1101, indexAlign := 0b1110, rm := 0b0010 }) := by decide

/-- E6: 1111 0100 1 D=0 10 Rn=0001 Vd=0100 size=01 10 index_align=1010 Rm=0010. -/
theorem test_decode_A2 :
    decodeWord .a32 0b11110100101000010100011010100010#32 =
      some (.vld3A2 { dBit := 0, rn := 0b0001, vd := 0b0100, indexAlign := 0b1010, rm := 0b0010 }) := by decide

/-- E9: 1111 0100 1 D=1 10 Rn=0011 Vd=0000 size=10 10 index_align=1000 Rm=1101. -/
theorem test_decode_A3 :
    decodeWord .a32 0b11110100111000110000101010001101#32 =
      some (.vld3A3 { dBit := 1, rn := 0b0011, vd := 0b0000, indexAlign := 0b1000, rm := 0b1101 }) := by decide

/-- E11, from its bytes in memory `A0 F9 2F 02` (20_memory.md rule R41). -/
theorem test_decode_T1 :
    decode .t32 [0xA0#8, 0xF9#8, 0x2F#8, 0x02#8] =
      .ok (.vld3T1 { dBit := 0, rn := 0b0000, vd := 0b0000, indexAlign := 0b0010, rm := 0b1111 }, []) := by rfl

/-- E12: 1111 1001 1 D=0 10 Rn=0111 | Vd=1010 size=01 10 index_align=0100 Rm=1101. -/
theorem test_decode_T2 :
    decodeWord .t32 0b11111001101001111010011001001101#32 =
      some (.vld3T2 { dBit := 0, rn := 0b0111, vd := 0b1010, indexAlign := 0b0100, rm := 0b1101 }) := by decide

/-- E13: 1111 1001 1 D=1 10 Rn=1101 | Vd=0001 size=10 10 index_align=1100 Rm=1101. -/
theorem test_decode_T3 :
    decodeWord .t32 0b11111001111011010001101011001101#32 =
      some (.vld3T3 { dBit := 1, rn := 0b1101, vd := 0b0001, indexAlign := 0b1100, rm := 0b1101 }) := by decide

/-- E6 and E13 as bytes in memory. -/
theorem test_encode_bytes :
    encode (.vld3A2 ⟨0, 0b0001, 0b0100, 0b1010, 0b0010⟩) = [0xA2#8, 0x46#8, 0xA1#8, 0xF4#8] ∧
    encode (.vld3T3 ⟨1, 0b1101, 0b0001, 0b1100, 0b1101⟩) = [0xED#8, 0xF9#8, 0xCD#8, 0x1A#8] := by decide

/-- V15 to V20: patterns that miss one constant cell, and an A32 pattern read as T32. -/
theorem test_decode_rejects :
    [0xF4B0020F#32, 0xF480020F#32, 0xF420020F#32, 0xF4A0000F#32, 0xF4A0030F#32].map (decodeWord .a32) =
      [none, none, none, none, none] ∧ decodeWord .t32 0xF4A0022F#32 = none := by decide

/-- V8 is the neighbour "to all lanes"; a first halfword `0x4770` is a 16-bit instruction; three bytes are too few. -/
theorem test_decode_reject_names :
    decode .a32 [0x0F#8, 0x0E#8, 0xA0#8, 0xF4#8] = .error .allLanes ∧
    decode .t32 [0x70#8, 0x47#8, 0x00#8, 0x00#8] = .error .narrow ∧
    decode .a32 [0x0F#8, 0x0E#8, 0xA0#8] = .error .truncated := ⟨rfl, rfl, rfl⟩

/-- V1, V23, V24 and V25: the decode variables. -/
theorem test_decode_variables :
    (Instr.vld3A1 ⟨0, 0, 0, 0b0010, 15⟩).decoded =
      .valid { ebytes := 1, index := 1, inc := 1, d := 0, n := 0, m := 15 } ∧
    (Instr.vld3A2 ⟨0, 1, 4, 0b1010, 2⟩).decoded =
      .valid { ebytes := 2, index := 2, inc := 2, d := 4, n := 1, m := 2 } := by decide

/-- V21 and V22: UNDEFINED goes before `n == 15`, and that before `d3 > 31`. -/
theorem test_decode_priority :
    (Instr.vld3A1 ⟨0, 15, 0, 0b0001, 15⟩).decoded = .undefined ∧
    (Instr.vld3A1 ⟨1, 15, 14, 0b0000, 15⟩).decoded = .unpredictableN15 := by decide

/-- E6 and vector P3 as assembler text (rule R73); 123 and 125 are the braces. -/
theorem test_asm_text :
    asmLine (.vld3A2 ⟨0, 1, 4, 0b1010, 2⟩) 0 =
      some ("VLD3.16 " ++ String.singleton (Char.ofNat 123) ++ "D4[2], D6[2], D8[2]"
        ++ String.singleton (Char.ofNat 125) ++ ", [R1], R2") ∧
    asmLine (.vld3T3 ⟨1, 13, 1, 0b0100, 13⟩) 0b00001100#8 =
      some ("VLD3EQ.32 " ++ String.singleton (Char.ofNat 123) ++ "D17[0], D19[0], D21[0]"
        ++ String.singleton (Char.ofNat 125) ++ ", [R13]!") := by decide

/-! ### Execution, one step each -/

/-- X1: lane 1, no writeback. -/
theorem test_step_A1 :
    goesTo (step (startX1 0xF4A0022F)) (fun t => t.d 0 = 0x1100#64 && t.d 1 = 0xFFFFFFFFFFFF22FF#64
      && t.d 2 = 0x0102030405063308#64 && t.r 0 = 0x1000#32 && t.pc = 0x104#32) = true := by decide

/-- X3: registers 29 to 31, base `R13`, a stride of minus 3. -/
theorem test_step_A1_negative_stride :
    goesTo (step (((((placed 0x100#32 0xF4EDD2E2).setR 13 0x7FF0#32).setR 2 0xFFFFFFFD#32)).storeBytes 0x7FF0#32
        [0xAA#8, 0xBB#8, 0xCC#8]))
      (fun t => t.d 29 = 0xAA00000000000000#64 && t.d 31 = 0xCC00000000000000#64 && t.r 13 = 0x7FED#32) = true := by
  decide

/-- X4 and X5: double spacing, writeback by `R2`, both byte orders. -/
theorem test_step_A2 :
    goesTo (step (startX4 false)) (fun t => t.d 4 = 0x0000123400000000#64 && t.d 6 = 0x0000567800000000#64
      && t.d 8 = 0x00009ABC00000000#64 && t.r 1 = 0x2010#32 && t.r 2 = 0x10#32) = true ∧
    goesTo (step (startX4 true)) (fun t => t.d 4 = 0x0000341200000000#64 && t.d 6 = 0x0000785600000000#64
      && t.d 8 = 0x0000BC9A00000000#64) = true := ⟨by decide, by decide⟩

/-- X6 and X7: a misaligned structure is loaded, or faults under strict alignment. -/
theorem test_step_A2_misaligned :
    goesTo (step (startX6 false)) (fun t => t.d 4 = 0x1234111111111111#64 && t.d 5 = 0x5678222222222222#64
      && t.r 1 = 0x2001#32) = true ∧
    faults (step (startX6 true)) (.dataAbort 0x100#32 .alignment 0x2001#32) = true := ⟨by decide, by decide⟩

/-- X8: base and index the same register. -/
theorem test_step_A3 :
    goesTo (step startX8) (fun t => t.d 1 = 0xAAAAAAAA00000001#64 && t.d 3 = 2#64 && t.d 5 = 0xCCCCCCCC00000003#64
      && t.r 4 = 0x6000#32) = true := by decide

/-- X9, X10 and X11: the last bytes of memory, a structure past them, an abort on the second element. -/
theorem test_step_A3_edges :
    goesTo (step (startX9 0xFFFFFFF4#32 .ok)) (fun t => t.d 16 = 0x0403020100000000#64
      && t.d 18 = 0x0C0B0A0900000000#64 && t.r 3 = 0#32) = true ∧
    refuses (step (startX9 0xFFFFFFF8#32 .ok)) .addrWrap = true ∧
    faults (step (startX9 0xFFC#32 .abort)) (.dataAbort 0x100#32 .other 0x1000#32) = true :=
  ⟨by decide, by decide, by decide⟩

/-- X15: condition NE inside an IT block. -/
theorem test_step_T1 :
    goesTo (step { (startX1 0xF9A0022F) with itstate := 0b00011010#8 })
      (fun t => t.d 0 = 0x1100#64 && t.itstate = 0b00010100#8 && t.pc = 0x104#32) = true := by decide

/-- X12: `pc` at 2 modulo 4, writeback by 6. -/
theorem test_step_T2 :
    goesTo (step (((placed 0x102#32 0xF9A7A64D).setR 7 0x4000#32).storeBytes 0x4000#32
        [0xEF#8, 0xBE#8, 0xAD#8, 0xDE#8, 0x0D#8, 0xF0#8]))
      (fun t => t.d 10 = 0xBEEF0000#64 && t.d 11 = 0xDEAD0000#64 && t.d 12 = 0xF00D0000#64 && t.r 7 = 0x4006#32
        && t.pc = 0x106#32 && t.itstate = 0#8) = true := by decide

/-- X13 and X14: condition EQ passes, and fails. -/
theorem test_step_T3 :
    goesTo (step (startX13 true)) (fun t => t.d 17 = 0x1234567811111111#64 && t.r 13 = 0x800C#32
      && t.itstate = 0#8) = true ∧
    goesTo (step (startX13 false)) (fun t => t.d 17 = 0x11111111#64 && t.r 13 = 0x8000#32 && t.itstate = 0#8
      && t.pc = 0x204#32) = true := ⟨by decide, by decide⟩

/-- X17 to X20, X24 (A32 bytes met with `T = 1`), X26 and X27. -/
theorem test_step_stops :
    faults (step (startX1 0xF4A0021F)) (.undefined 0x100#32) = true ∧
    faults (step (withEnable .undefined (startX1 0xF4A0022F))) (.undefined 0x100#32) = true ∧
    faults (step (withEnable .hypTrap (startX1 0xF4A0022F))) (.hypTrap 0x100#32) = true ∧
    refuses (step (startX1 0xF4AF020F)) .unpredictableN15 = true ∧
    refuses (step { (startX1 0xF4A0022F) with t := true }) .otherInstruction = true ∧
    refuses (step { (startX1 0xF9A0022F) with itstate := 0b00010000#8 }) .badItstate = true ∧
    refuses (step (placed 0xFFFFFFFC#32 0xF4A0022F)) .pcWrap = true :=
  ⟨by decide, by decide, by decide, by decide, by decide, by decide, by decide⟩

/-- Every row's word, with operands 0, runs as the first instruction after reset. -/
theorem test_rows_run_from_reset :
    [0xF4A00200, 0xF4A00600, 0xF4A00A00, 0xF9A00200, 0xF9A00600, 0xF9A00A00].all
      (fun w => goesTo (step (State.reset.withFetchWord 32 w)) (fun t => t.pc = 4#32)) = true := by decide

/-- The tables of words and of instructions agree on those words. -/
theorem test_decodeTableWord :
    decodeTableWord 32 0xF4A00600 = some (.vld3A2 ⟨0, 0, 0, 0, 0⟩) ∧
    decodeTableWord 32 0xF9A00A00 = some (.vld3T3 ⟨0, 0, 0, 0, 0⟩) ∧ decodeTableWord 32 0xF4A00E00 = none := by decide

/-! ### Witnesses: the hypotheses of the statements can be met together -/

/-- The forms of X1, X4, X8, X13 and their variables. -/
def formX1 : Instr := .vld3A1 ⟨0, 0, 0, 0b0010, 15⟩
def varsX1 : DecodeVars := { ebytes := 1, index := 1, inc := 1, d := 0, n := 0, m := 15 }
def formX4 : Instr := .vld3A2 ⟨0, 1, 4, 0b1010, 2⟩
def varsX4 : DecodeVars := { ebytes := 2, index := 2, inc := 2, d := 4, n := 1, m := 2 }
def formX6 : Instr := .vld3A2 ⟨0, 1, 4, 0b1100, 15⟩
def varsX6 : DecodeVars := { ebytes := 2, index := 3, inc := 1, d := 4, n := 1, m := 15 }
def formX8 : Instr := .vld3A3 ⟨0, 4, 1, 0b0100, 4⟩
def varsX8 : DecodeVars := { ebytes := 4, index := 0, inc := 2, d := 1, n := 4, m := 4 }
def formX9 : Instr := .vld3A3 ⟨1, 3, 0, 0b1000, 13⟩
def varsX9 : DecodeVars := { ebytes := 4, index := 1, inc := 1, d := 16, n := 3, m := 13 }
def formX13 : Instr := .vld3T3 ⟨1, 13, 1, 0b1100, 13⟩
def varsX13 : DecodeVars := { ebytes := 4, index := 1, inc := 2, d := 17, n := 13, m := 13 }
/-- V12: the third register number is 32. -/
def formV12 : Instr := .vld3A2 ⟨1, 0, 12, 0b0010, 15⟩
def varsV12 : DecodeVars := { ebytes := 2, index := 0, inc := 2, d := 28, n := 0, m := 15 }

theorem passes_a32 (s : State) : Passes .a32 s := by intro h; cases h

theorem passes_X13 : Passes formX13.set (startX13 true) := fun _ => ⟨0b0000#4, by decide, by decide⟩

theorem fails_X14 : Fails formX13.set (startX13 false) := ⟨by decide, 0b0000#4, by decide, by decide⟩

theorem witness_EncodeOfDecodeIsTheBytes :
    decode .a32 [0xA2#8, 0x46#8, 0xA1#8, 0xF4#8] = .ok (formX4, []) ∧
    decode .t32 [0xED#8, 0xF9#8, 0xCD#8, 0x1A#8] = .ok (formX13, []) := ⟨rfl, rfl⟩

/-- Every value of `size`, in both instruction sets, and a valid form of each size. -/
theorem witness_SizeFieldSelectsEncoding :
    [0xF4A0022F#32, 0xF4A146A2#32, 0xF4E30A8D#32, 0xF4A00E0F#32].all (fun w => w &&& 0xFFB00300#32 = 0xF4A00200#32) ∧
    [0xF9A0022F#32, 0xF9A7A64D#32, 0xF9ED1ACD#32, 0xF9A00E0F#32].all (fun w => w &&& 0xFFB00300#32 = 0xF9A00200#32) ∧
    formX1.decoded = .valid varsX1 ∧ formX4.decoded = .valid varsX4 ∧ formX13.decoded = .valid varsX13 := by decide

/-- The three addressing forms, and two base registers that differ. -/
theorem witness_RmSelectsAddressingForm :
    formX1.decoded = .valid varsX1 ∧ formX1.fields.rm = 0b1111#4 ∧
    formX9.decoded = .valid varsX9 ∧ formX9.fields.rm = 0b1101#4 ∧
    formX4.decoded = .valid varsX4 ∧ formX4.fields.rm ≠ 0b1111#4 ∧ formX4.fields.rm ≠ 0b1101#4 ∧
    formX4.fields.rn ≠ 15#4 ∧ (14#4 ≠ 15#4) ∧
    formV12.decoded = .unpredictableD3 varsV12 ∧ (Instr.vld3A1 ⟨0, 15, 31, 0, 15⟩).fields.rn = 0b1111#4 := by decide

/-- `d3 = 31` exactly (V13) and `d3 = 32` (V12). -/
theorem witness_RegisterNumbersOfTheStructure :
    (Instr.vld3A2 ⟨1, 0, 11, 0b0010, 15⟩).decoded =
      .valid { ebytes := 2, index := 0, inc := 2, d := 27, n := 0, m := 15 } ∧
    formV12.decoded = .unpredictableD3 varsV12 := by decide

theorem witness_WellFormedIsValidByDecode : formX4.wellFormed = true ∧ formV12.wellFormed = false := by decide

theorem witness_BadItstateIsRefused :
    formX13.set = .t32 ∧ (0b00010000#8).toNat % 16 = 0 ∧ (0b00010000#8).toNat ≠ 0 := by decide

/-- Each lane in turn: the top lane of each size. -/
theorem witness_SetElemBits : (7 + 1) * 8 ≤ 64 ∧ (3 + 1) * 16 ≤ 64 ∧ (1 + 1) * 32 ≤ 64 := by decide

/-- The lowest and the highest byte of a four-byte element. -/
theorem witness_ElementBytesByByteOrder : 0 < 4 ∧ 3 < 4 := by decide

/-- The lowest and the highest register. -/
theorem witness_LaneWritesAreSeenThroughTheViews : 0 < 32 ∧ 31 < 32 := by decide

/-- A value in a block, and the value outside every block. -/
theorem witness_ItstateReadAndAdvance :
    (currentCond 0b00000100#8).isSome = true ∧ (currentCond 0#8).isSome = true := by decide

/-- A form without writeback, by a register, by the constant; A32 and T32. -/
theorem witness_ValidFormsLoadTheirStructure :
    (formX1.decoded = .valid varsX1 ∧ Passes formX1.set (startX1 0xF4A0022F) ∧ CanLoad varsX1 (startX1 0xF4A0022F)) ∧
    (formX4.decoded = .valid varsX4 ∧ Passes formX4.set (startX4 true) ∧ CanLoad varsX4 (startX4 true)) ∧
    (formX13.decoded = .valid varsX13 ∧ Passes formX13.set (startX13 true) ∧ CanLoad varsX13 (startX13 true)) :=
  ⟨⟨by decide, passes_a32 _, by decide⟩, ⟨by decide, passes_a32 _, by decide⟩, ⟨by decide, passes_X13, by decide⟩⟩

theorem witness_EightBitFormsLoadThreeBytes :
    formX1.fields.wellFormed8 = true ∧ Passes (Instr.vld3A1 formX1.fields).set (startX1 0xF4A0022F) ∧
    CanLoad (formX1.fields.vars 1 (formX1.fields.indexAlign.toNat / 2) 1) (startX1 0xF4A0022F) :=
  ⟨by decide, passes_a32 _, by decide⟩

theorem witness_FailedConditionOnlyCompletes :
    formX13.decoded = .valid varsX13 ∧ Fails formX13.set (startX13 false) ∧
    advSIMDCheck (startX13 false) = .enabled ∧ PcFits (startX13 false) := ⟨by decide, fails_X14, by decide, by decide⟩

theorem witness_SameBaseAndIndexDoubles :
    formX8.decoded = .valid varsX8 ∧ Passes formX8.set startX8 ∧ CanLoad varsX8 startX8 ∧ varsX8.m = varsX8.n ∧
    varsX8.m.val ≠ 13 := ⟨by decide, passes_a32 _, by decide, by decide, by decide⟩

theorem witness_FrameOfValidForms :
    formX4.decoded = .valid varsX4 ∧ ∃ t, exec formX4 (startX4 false) = .next t :=
  ⟨by decide, next_of_goesTo (p := fun _ => true) (by decide)⟩

/-- With and without `Rm == 0b1111`. -/
theorem witness_FrameOfEveryWord :
    (∃ t, exec formX4 (startX4 false) = .next t) ∧ formX1.fields.rm = 15#4 ∧
    ∃ t, exec formX1 (startX1 0xF4A0022F) = .next t :=
  ⟨next_of_goesTo (p := fun _ => true) (by decide), by decide, next_of_goesTo (p := fun _ => true) (by decide)⟩

theorem witness_A32IgnoresFlagsAndItstate : formX4.set = .a32 := by decide

/-- Memory that differs at one byte outside the structure of X1. -/
theorem witness_OnlyTheStructureIsRead :
    formX1.decoded = .valid varsX1 ∧
    ∀ a, baseAddress varsX1 (startX1 0xF4A0022F) ≤ a → a < baseAddress varsX1 (startX1 0xF4A0022F) + 3 * 1 →
      ((startX1 0xF4A0022F).mem.write 0x1003 0x44#8).read a = (startX1 0xF4A0022F).mem.read a := by
  refine ⟨by decide, fun a h1 h2 => ?_⟩
  have hb : baseAddress varsX1 (startX1 0xF4A0022F) = 0x1000 := by decide
  rw [hb] at h1 h2
  have : a = 0x1000 ∨ a = 0x1001 ∨ a = 0x1002 := by omega
  rcases this with rfl | rfl | rfl <;> decide

/-- Each answer of the enable check. -/
theorem witness_EnableCheckDecides :
    formX1.decoded = .valid varsX1 ∧ (∀ s, Passes formX1.set s) ∧
    advSIMDCheck (withEnable .undefined State.reset) = .undefined ∧
    advSIMDCheck (withEnable .hypTrap State.reset) = .hypTrap ∧ advSIMDCheck State.reset = .enabled :=
  ⟨by decide, passes_a32, by decide, by decide, by decide⟩

/-- X17 and X25. -/
theorem witness_UndefinedWordsFault :
    (Instr.vld3A1 ⟨0, 0, 0, 0b0001, 15⟩).decoded = .undefined ∧
    (∀ s, Passes (Instr.vld3A1 ⟨0, 0, 0, 0b0001, 15⟩).set s) ∧ advSIMDCheck State.reset ≠ .hypTrap ∧
    advSIMDCheck (withEnable .hypTrap State.reset) = .hypTrap := ⟨by decide, passes_a32, by decide, by decide⟩

/-- X16, and a valid form that is not enabled. -/
theorem witness_FailedConditionOnBadWords :
    (Instr.vld3T1 ⟨0, 0, 0, 0b0001, 15⟩).decoded = .undefined ∧ Fails .t32 (startX13 false) ∧ PcFits (startX13 false) ∧
    formX13.decoded = .valid varsX13 ∧ Fails formX13.set (withEnable .hypTrap (startX13 false)) ∧
    advSIMDCheck (withEnable .hypTrap (startX13 false)) ≠ .enabled :=
  ⟨by decide, ⟨rfl, 0b0000#4, by decide, by decide⟩, by decide, by decide, ⟨by decide, 0b0000#4, by decide, by decide⟩,
    by decide⟩

theorem witness_StrictAlignmentFaultsOnFirstElement :
    formX6.decoded = .valid varsX6 ∧ Passes formX6.set (startX6 true) ∧ advSIMDCheck (startX6 true) = .enabled ∧
    Fits varsX6 (startX6 true) ∧ strictAlign (startX6 true) = true ∧
    baseAddress varsX6 (startX6 true) % varsX6.ebytes ≠ 0 :=
  ⟨by decide, passes_a32 _, by decide, by decide, by decide, by decide⟩

/-- One-byte elements, and two-byte elements without strict alignment. -/
theorem witness_NoAlignmentFaultWithoutCause :
    formX1.decoded = .valid varsX1 ∧ varsX1.ebytes = 1 ∧ formX6.decoded = .valid varsX6 ∧
    strictAlign (startX6 false) = false := by decide

/-- X7: an alignment fault occurs. -/
theorem witness_AlignmentFaultHasItsCause :
    ∃ pc addr, exec formX6 (startX6 true) = .fault (.dataAbort pc .alignment addr) :=
  ⟨0x100#32, 0x2001#32, eq_of_faults (by decide)⟩

/-- X11: the second element aborts; the same with a read without meaning; and the first element at the boundary. -/
theorem witness_FirstElementNotAdmittedDecides :
    formX9.decoded = .valid varsX9 ∧ (∀ s, Passes formX9.set s) ∧
    (∀ a ∈ [AdmitAnswer.abort, .notAdmitted],
      advSIMDCheck (startX9 0xFFC#32 a) = .enabled ∧ Fits varsX9 (startX9 0xFFC#32 a) ∧
      Aligned varsX9 (startX9 0xFFC#32 a) ∧ (∀ j, j < 1 → admitElement varsX9 (startX9 0xFFC#32 a) j = .ok) ∧
      admitElement varsX9 (startX9 0xFFC#32 a) 1 = a ∧ admitElement varsX9 (startX9 0x1000#32 a) 0 = a) :=
  ⟨by decide, passes_a32, by decide⟩

/-- A fault of exec, and of a step from an unmarked state. -/
theorem witness_FaultsRecordTheirPc :
    (∃ r, exec (.vld3A1 ⟨0, 0, 0, 0b0001, 15⟩) (startX1 0xF4A0021F) = .fault r) ∧ Unmarked (startX1 0xF4A0021F) ∧
    ∃ r, step (startX1 0xF4A0021F) = .fault r :=
  ⟨⟨.undefined 0x100#32, eq_of_faults (by decide)⟩, by decide, .undefined 0x100#32, eq_of_faults (by decide)⟩

/-- V9, and V22 where `d3 > 31` as well; condition passed, and failed in T32. -/
theorem witness_BaseRegister15IsRefused :
    (Instr.vld3A1 ⟨1, 15, 14, 0, 15⟩).fields.rn = 15#4 ∧ (Instr.vld3A1 ⟨1, 15, 14, 0, 15⟩).decoded ≠ .undefined ∧
    (∀ s, Passes (Instr.vld3A1 ⟨1, 15, 14, 0, 15⟩).set s) ∧
    (Instr.vld3T1 ⟨0, 15, 0, 0, 15⟩).decoded ≠ .undefined ∧ Fails (Instr.vld3T1 ⟨0, 15, 0, 0, 15⟩).set (startX13 false) :=
  ⟨by decide, by decide, passes_a32, by decide, ⟨rfl, 0b0000#4, by decide, by decide⟩⟩

theorem witness_RegisterListPastTheEnd :
    formV12.decoded = .unpredictableD3 varsV12 ∧ (∀ s, Passes formV12.set s) ∧ PcFits State.reset :=
  ⟨by decide, passes_a32, by decide⟩

/-- T2 with `d3 = 32` under a failing EQ (40_vld3_one_lane.md rule R87, D10). -/
theorem test_skipped_past_the_end :
    refuses (exec (.vld3T2 ⟨1, 0, 12, 0b0010, 15⟩) (startX13 false)) .cunpredictableD3 = true := by decide

theorem witness_SkippedPastTheEndIsRefused :
    (Instr.vld3T2 ⟨1, 0, 12, 0b0010, 15⟩).decoded = .unpredictableD3 varsV12 ∧
    Fails (Instr.vld3T2 ⟨1, 0, 12, 0b0010, 15⟩).set (startX13 false) :=
  ⟨by decide, ⟨rfl, 0b0000#4, by decide, by decide⟩⟩

theorem witness_EachBehaviourPastTheEnd : PcFits State.reset ∧ varsV12.ebytes ≠ 0 := by decide

/-- X10. -/
theorem witness_StructurePastTheTopIsRefused :
    formX9.decoded = .valid varsX9 ∧ Passes formX9.set (startX9 0xFFFFFFF8#32 .ok) ∧
    advSIMDCheck (startX9 0xFFFFFFF8#32 .ok) = .enabled ∧ ¬ Fits varsX9 (startX9 0xFFFFFFF8#32 .ok) ∧
    Fits varsX9 (startX9 0xFFFFFFF4#32 .ok) := ⟨by decide, passes_a32 _, by decide, by decide, by decide⟩

/-- X27, and a failed condition at the top. -/
theorem witness_PcAtTheTopIsRefused :
    (formX1.decoded = .valid varsX1 ∧ ¬ PcFits (placed 0xFFFFFFFC#32 0xF4A0022F) ∧
      Passes formX1.set (placed 0xFFFFFFFC#32 0xF4A0022F) ∧ advSIMDCheck (placed 0xFFFFFFFC#32 0xF4A0022F) = .enabled ∧
      Fits varsX1 (placed 0xFFFFFFFC#32 0xF4A0022F) ∧ Aligned varsX1 (placed 0xFFFFFFFC#32 0xF4A0022F) ∧
      Admitted varsX1 (placed 0xFFFFFFFC#32 0xF4A0022F)) ∧
    Fails formX13.set { (startX13 false) with pc := 0xFFFFFFFC#32 } ∧
    ¬ PcFits { (startX13 false) with pc := 0xFFFFFFFC#32 } :=
  ⟨⟨by decide, by decide, passes_a32 _, by decide, by decide, by decide, by decide⟩,
    ⟨by decide, 0b0000#4, by decide, by decide⟩, by decide⟩

theorem witness_RefusalsOfExecAreNamed : ∃ r, exec (.vld3A1 ⟨0, 15, 0, 0, 15⟩) State.reset = .refused r :=
  ⟨.unpredictableN15, rfl⟩

theorem witness_StepRunsTheDecodedInstruction :
    Unmarked (startX4 false) ∧ (startX4 false).pc.toNat % pcAlign (startX4 false).instrSet = 0 ∧
    (startX4 false).pc.toNat + 4 ≤ 2 ^ 32 ∧
    decode (startX4 false).instrSet ((startX4 false).mem.bytes (startX4 false).pc.toNat 4) = .ok (formX4, []) :=
  ⟨by decide, by decide, by decide, by rfl⟩

theorem witness_StepRunsTheBytesAtPc :
    Unmarked (startX13 true) ∧ (startX13 true).pc.toNat % pcAlign formX13.set = 0 ∧
    (startX13 true).pc.toNat + 4 ≤ 2 ^ 32 ∧ (startX13 true).instrSet = formX13.set ∧
    ∀ k, k < 4 → some ((startX13 true).mem.read ((startX13 true).pc.toNat + k)) = (encode formX13)[k]? := by decide

/-- A misaligned `pc`; a T32 `pc` at the top; and memory of zeros, whose fourth byte is not the `F4` of an A32 encoding. -/
theorem witness_FetchRefusals :
    (Unmarked (placed 0x102#32 0xF4A0022F) ∧
      (placed 0x102#32 0xF4A0022F).pc.toNat % pcAlign (placed 0x102#32 0xF4A0022F).instrSet ≠ 0) ∧
    (Unmarked { State.reset with t := true, pc := 0xFFFFFFFE#32 } ∧ 0xFFFFFFFE % pcAlign .t32 = 0 ∧
      0xFFFFFFFE + 4 > 2 ^ 32) ∧
    Unmarked State.reset ∧ State.reset.pc.toNat % pcAlign State.reset.instrSet = 0 ∧
    State.reset.pc.toNat + 4 ≤ 2 ^ 32 ∧
    ∀ i : Instr, i.set = State.reset.instrSet →
      ∃ k, k < 4 ∧ some (State.reset.mem.read (State.reset.pc.toNat + k)) ≠ (encode i)[k]? := by
  refine ⟨by decide, by decide, by decide, by decide, by decide, fun i hi => ⟨3, by decide, ?_⟩⟩
  have h := Laws.EncodedRow.all i
  have e : (encode i)[3]? = some ((encodeWord i).extractLsb' 24 8) := by rw [encode, hi]; rfl
  have z : State.reset.mem.read (State.reset.pc.toNat + 3) = 0#8 := rfl
  rw [e, z]
  intro hb
  have hb' : (encodeWord i).getLsbD 31 = false := by
    have := congrArg (fun x : Option Byte => x.map fun b => b.getLsbD 7) hb
    simpa using this.symm
  have hm := congrArg (fun w : Word => w.getLsbD 31) h.2.1
  rw [BitVec.getLsbD_and, hb'] at hm
  cases i <;> exact absurd hm (by simp only [Laws.EncodedRow.rowPattern]; decide)

theorem witness_LaunchPremisesGiveProgress :
    (Unmarked (startX13 true) ∧ (startX13 true).pc.toNat % pcAlign formX13.set = 0 ∧
      (startX13 true).instrSet = formX13.set ∧
      (∀ k, k < 4 → some ((startX13 true).mem.read ((startX13 true).pc.toNat + k)) = (encode formX13)[k]?) ∧
      formX13.decoded = .valid varsX13 ∧ advSIMDCheck (startX13 true) = .enabled ∧ PcFits (startX13 true) ∧
      CanLoad varsX13 (startX13 true)) ∧
    Passes formX13.set (startX13 true) ∧ Fails formX13.set (startX13 false) := ⟨by decide, passes_X13, fails_X14⟩

/-- One witness for the statements about a step that goes on: it does, from a state with the invariant. -/
theorem witness_StepsKeepTheInvariant :
    Inv (startX13 true) ∧ ∃ t, step (startX13 true) = .next t :=
  ⟨by decide, next_of_goesTo (p := fun _ => true) (by decide)⟩

theorem witness_StepsKeepMemoryFlagsAndMode : ∃ t, step (startX4 true) = .next t :=
  next_of_goesTo (p := fun _ => true) (by decide)

theorem witness_StepsNeverWriteR15 : ∃ t, step startX8 = .next t := next_of_goesTo (p := fun _ => true) (by decide)

/-- P4's second step faults from an unmarked state, memory of zeros is refused, and the state after either is marked. -/
theorem witness_MarksAreSticky :
    (Unmarked (startX1 0xF4A0021F) ∧ step (startX1 0xF4A0021F) = .fault (.undefined 0x100#32)) ∧
    (Unmarked State.reset ∧ step State.reset = .refused .otherInstruction) ∧
    ¬ Unmarked (settle (startX1 0xF4A0021F) (step (startX1 0xF4A0021F))) :=
  ⟨⟨by decide, eq_of_faults (by decide)⟩, ⟨by decide, eq_of_refuses (by decide)⟩, by decide⟩

/-- X17. -/
theorem witness_PreciseFaultsKeepTheState :
    Unmarked (startX1 0xF4A0021F) ∧ step (startX1 0xF4A0021F) = .fault (.undefined 0x100#32) :=
  ⟨by decide, eq_of_faults (by decide)⟩

theorem witness_RunsAdvanceByFour : ∃ t, Host.Core.run Sys2Proof.core 1 (startX4 false) = .next t := by
  obtain ⟨t, ht⟩ := next_of_goesTo (o := step (startX4 false)) (p := fun _ => true) (by decide)
  exact ⟨t, by rw [run_succ, ht]; rfl⟩

theorem witness_FinalMeansEveryStepWasNext : Unmarked (startX4 false) := by decide

end Sys2Proof.Tests
end

section
/-! SUPPORT. The decode of the operand fields read against the table of 30_encoding.md rule R65, one inversion lemma for
all six encodings; the decode of words by the `size` field. Then the statements about the encoding. -/

namespace Sys2Proof
open Sys2Proof.Machine

/-! ### The table of an instruction -/

/-- The bytes of an element in the encoding (rule R64). -/
def Instr.ebytes : Instr → Nat
  | .vld3A1 _ | .vld3T1 _ => 1
  | .vld3A2 _ | .vld3T2 _ => 2
  | .vld3A3 _ | .vld3T3 _ => 4

/-- The column of rule R65's table for the encoding. -/
def Instr.indexTable : Instr → List (Option (Nat × Nat × Nat))
  | .vld3A1 _ | .vld3T1 _ => indexTable8
  | .vld3A2 _ | .vld3T2 _ => indexTable16
  | .vld3A3 _ | .vld3T3 _ => indexTable32

/-- The cell of the table that `index_align` selects. -/
def Instr.tableCell (i : Instr) : Option (Nat × Nat × Nat) :=
  (i.indexTable[i.fields.indexAlign.toNat]?).getD none

theorem indexTable8_eq : ∀ ia : BitVec 4, (indexTable8[ia.toNat]?).getD none =
    if ia.getLsbD 0 then none else some ((ia.extractLsb' 1 3).toNat, 1, 31 - 2 * 1) := by decide

theorem indexTable16_eq : ∀ ia : BitVec 4, (indexTable16[ia.toNat]?).getD none =
    if ia.getLsbD 0 then none
    else some ((ia.extractLsb' 2 2).toNat, if ia.getLsbD 1 then 2 else 1,
      31 - 2 * if ia.getLsbD 1 then 2 else 1) := by decide

theorem indexTable32_eq : ∀ ia : BitVec 4, (indexTable32[ia.toNat]?).getD none =
    if ia.extractLsb' 0 2 ≠ 0b00#2 then none
    else some ((ia.extractLsb' 3 1).toNat, if ia.getLsbD 2 then 2 else 1,
      31 - 2 * if ia.getLsbD 2 then 2 else 1) := by decide

/-- "d max" leaves room for two more registers at the spacing, and no more. -/
theorem indexTable_dMax : ∀ table ∈ [indexTable8, indexTable16, indexTable32], ∀ cell ∈ table,
    cell.all (fun c => c.2.2 + 2 * c.2.1 = 31) := by decide

theorem Instr.tableCell_dMax {i : Instr} {index inc dMax : Nat} (h : i.tableCell = some (index, inc, dMax)) :
    dMax + 2 * inc = 31 := by
  have hmem : some (index, inc, dMax) ∈ i.indexTable := by
    rw [Instr.tableCell, Option.getD_eq_iff] at h
    exact h.elim List.mem_of_getElem? (fun h => absurd h.2 (by simp))
  have htable : i.indexTable ∈ [indexTable8, indexTable16, indexTable32] := by
    cases i <;> simp [Instr.indexTable]
  simpa using indexTable_dMax _ htable _ hmem

/-! ### The decode of the operand fields -/

/-- `D:Vd` is `16 * UInt(D) + UInt(Vd)` (rule R67). -/
theorem Fields.toNat_dBit_append_vd (f : Fields) : (f.dBit ++ f.vd).toNat = f.firstReg := by
  rw [BitVec.toNat_append, ← Nat.shiftLeft_add_eq_or_of_lt f.vd.isLt, Nat.shiftLeft_eq, Nat.mul_comm,
    Fields.firstReg]

theorem Fields.firstReg_le (f : Fields) : f.firstReg ≤ 31 := by
  have hd := f.dBit.isLt
  have hv := f.vd.isLt
  unfold Fields.firstReg
  omega

theorem Fields.vars_n_eq_15 (f : Fields) (ebytes index inc : Nat) :
    (f.vars ebytes index inc).n = 15 ↔ f.rn = 15#4 :=
  BitVec.toFin_inj (y := 15#4)

theorem Fields.vars_d3 (f : Fields) (ebytes index inc : Nat) :
    (f.vars ebytes index inc).d3 = f.firstReg + 2 * inc := by
  simp only [DecodeVars.d3, DecodeVars.d2, Fields.vars, f.toNat_dBit_append_vd]
  omega

/-- The pseudocode's test of `d3` is the table's "d max". -/
theorem classify_asTable (f : Fields) (ebytes index : Nat) {inc : Nat} (hinc : inc ≤ 2) :
    DecodesAsTable (some (index, inc, 31 - 2 * inc)) ebytes f (classify (f.vars ebytes index inc)) := by
  have hd3 : (f.vars ebytes index inc).d3 > 31 ↔ ¬ f.firstReg ≤ 31 - 2 * inc := by
    rw [f.vars_d3]
    omega
  simp only [DecodesAsTable, classify, f.vars_n_eq_15, hd3]
  split_ifs <;> rfl

theorem Fields.decode8_asTable (f : Fields) :
    DecodesAsTable ((indexTable8[f.indexAlign.toNat]?).getD none) 1 f f.decode8 := by
  rw [indexTable8_eq, Fields.decode8]
  split
  · rfl
  · exact classify_asTable f _ _ (by omega)

theorem Fields.decode16_asTable (f : Fields) :
    DecodesAsTable ((indexTable16[f.indexAlign.toNat]?).getD none) 2 f f.decode16 := by
  rw [indexTable16_eq, Fields.decode16]
  split
  · rfl
  · exact classify_asTable f _ _ (by split <;> omega)

theorem Fields.decode32_asTable (f : Fields) :
    DecodesAsTable ((indexTable32[f.indexAlign.toNat]?).getD none) 4 f f.decode32 := by
  rw [indexTable32_eq, Fields.decode32]
  split
  · rfl
  · exact classify_asTable f _ _ (by split <;> omega)

theorem Instr.decoded_asTable (i : Instr) : DecodesAsTable i.tableCell i.ebytes i.fields i.decoded := by
  cases i with
  | vld3A1 f => exact f.decode8_asTable
  | vld3A2 f => exact f.decode16_asTable
  | vld3A3 f => exact f.decode32_asTable
  | vld3T1 f => exact f.decode8_asTable
  | vld3T2 f => exact f.decode16_asTable
  | vld3T3 f => exact f.decode32_asTable

/-- What the decode of an instruction can give, and exactly when. -/
theorem Instr.decoded_cases (i : Instr) :
    (i.tableCell = none ∧ i.decoded = .undefined) ∨
    ∃ index inc dMax, i.tableCell = some (index, inc, dMax) ∧
      ((i.fields.rn = 15#4 ∧ i.decoded = .unpredictableN15) ∨
       (i.fields.rn ≠ 15#4 ∧ i.fields.firstReg ≤ dMax ∧
          i.decoded = .valid (i.fields.vars i.ebytes index inc)) ∨
       (i.fields.rn ≠ 15#4 ∧ dMax < i.fields.firstReg ∧
          i.decoded = .unpredictableD3 (i.fields.vars i.ebytes index inc))) := by
  have h := i.decoded_asTable
  cases hcell : i.tableCell with
  | none =>
    rw [hcell] at h
    exact .inl ⟨rfl, h⟩
  | some cell =>
    obtain ⟨index, inc, dMax⟩ := cell
    rw [hcell] at h
    simp only [DecodesAsTable] at h
    refine .inr ⟨index, inc, dMax, rfl, ?_⟩
    split_ifs at h with hn hd
    · exact .inl ⟨hn, h⟩
    · exact .inr (.inl ⟨hn, hd, h⟩)
    · exact .inr (.inr ⟨hn, by omega, h⟩)

theorem Instr.decoded_ebytes {i : Instr} {v : DecodeVars}
    (h : i.decoded = .valid v ∨ i.decoded = .unpredictableD3 v) : v.ebytes = i.ebytes := by
  obtain ⟨-, hd⟩ | ⟨index, inc, dMax, -, ⟨-, hd⟩ | ⟨-, -, hd⟩ | ⟨-, -, hd⟩⟩ := i.decoded_cases <;>
    simp only [hd, reduceCtorEq, Decoded.valid.injEq, Decoded.unpredictableD3.injEq, or_false, false_or] at h
  all_goals rw [← h, Fields.vars]

theorem Instr.decoded_of_base15 {i : Instr} (h : i.fields.rn = 15#4) :
    i.decoded = .undefined ∨ i.decoded = .unpredictableN15 := by
  obtain ⟨-, hd⟩ | ⟨index, inc, dMax, -, ⟨-, hd⟩ | ⟨hn, -⟩ | ⟨hn, -⟩⟩ := i.decoded_cases
  · exact .inl hd
  · exact .inr hd
  · exact absurd h hn
  · exact absurd h hn

theorem Instr.exists_valid_iff (i : Instr) :
    (∃ v, i.decoded = .valid v) ↔
      i.fields.rn ≠ 15#4 ∧ ∃ index inc dMax, i.tableCell = some (index, inc, dMax) ∧ i.fields.firstReg ≤ dMax := by
  obtain ⟨hcell, hd⟩ | ⟨index, inc, dMax, hcell, ⟨hn, hd⟩ | ⟨hn, hle, hd⟩ | ⟨hn, hlt, hd⟩⟩ := i.decoded_cases
  · simp [hcell, hd]
  · simp [hn, hd]
  · exact iff_of_true ⟨_, hd⟩ ⟨hn, index, inc, dMax, hcell, hle⟩
  · simp [hcell, hd, hlt]

theorem Instr.unpredictableD3_d3_gt {i : Instr} {v : DecodeVars} (h : i.decoded = .unpredictableD3 v) :
    31 < v.d3 := by
  obtain ⟨-, hd⟩ | ⟨index, inc, dMax, hcell, ⟨-, hd⟩ | ⟨-, -, hd⟩ | ⟨-, hlt, hd⟩⟩ := i.decoded_cases <;>
    simp only [hd, reduceCtorEq, Decoded.unpredictableD3.injEq] at h
  have hmax := Instr.tableCell_dMax hcell
  rw [← h, Fields.vars_d3]
  omega

/-! ### The addressing form -/

theorem Machine.FieldVars.wback_eq {f : Fields} {v : DecodeVars} (h : FieldVars f v) :
    v.wback = decide (f.rm ≠ 0b1111#4) := by
  simp only [DecodeVars.wback, h.m_eq, ne_eq, decide_eq_decide]
  exact not_congr (BitVec.toFin_inj (y := 15#4))

theorem Machine.FieldVars.registerIndex_eq {f : Fields} {v : DecodeVars} (h : FieldVars f v) :
    v.registerIndex = (decide (f.rm ≠ 0b1111#4) && decide (f.rm ≠ 0b1101#4)) := by
  have hpc : f.rm.toFin = 15 ↔ f.rm = 0b1111#4 := BitVec.toFin_inj (y := 15#4)
  have hsp : f.rm.toFin = 13 ↔ f.rm = 0b1101#4 := BitVec.toFin_inj (y := 13#4)
  simp only [DecodeVars.registerIndex, h.m_eq, ne_eq, hpc, hsp]

/-! ### The decode of words by `size` -/

theorem decodeWord_a32 (w : Word) : decodeWord .a32 w =
    if w &&& 0xFFB00F00#32 = 0xF4A00200#32 then some (.vld3A1 (fieldsOf w))
    else if w &&& 0xFFB00F00#32 = 0xF4A00600#32 then some (.vld3A2 (fieldsOf w))
    else if w &&& 0xFFB00F00#32 = 0xF4A00A00#32 then some (.vld3A3 (fieldsOf w))
    else none := by
  simp only [decodeWord, opcodeRows, List.find?_cons, List.find?_nil]
  split_ifs <;> simp_all

theorem decodeWord_t32 (w : Word) : decodeWord .t32 w =
    if w &&& 0xFFB00F00#32 = 0xF9A00200#32 then some (.vld3T1 (fieldsOf w))
    else if w &&& 0xFFB00F00#32 = 0xF9A00600#32 then some (.vld3T2 (fieldsOf w))
    else if w &&& 0xFFB00F00#32 = 0xF9A00A00#32 then some (.vld3T3 (fieldsOf w))
    else none := by
  simp only [decodeWord, opcodeRows, List.find?_cons, List.find?_nil]
  split_ifs <;> simp_all

/-- The row mask keeps the cells outside `size` and `size` itself. -/
theorem and_rowMask (w : Word) :
    w &&& 0xFFB00F00#32 = (w &&& 0xFFB00300#32) ||| (w.extractLsb' 10 2).setWidth 32 <<< 10 := by
  have hsize : w &&& 0xC00#32 = (w.extractLsb' 10 2).setWidth 32 <<< 10 := by
    apply BitVec.eq_of_getLsbD_eq
    intro j hj
    interval_cases j <;> simp
  rw [← hsize, ← BitVec.and_or_distrib_left]
  rfl

theorem bitVec2_cases : ∀ b : BitVec 2, b = 0b00#2 ∨ b = 0b01#2 ∨ b = 0b10#2 ∨ b = 0b11#2 := by decide

theorem decodeWord_a32_of_size {w : Word} (h : w &&& 0xFFB00300#32 = 0xF4A00200#32) : decodeWord .a32 w =
    if w.extractLsb' 10 2 = 0b00#2 then some (.vld3A1 (fieldsOf w))
    else if w.extractLsb' 10 2 = 0b01#2 then some (.vld3A2 (fieldsOf w))
    else if w.extractLsb' 10 2 = 0b10#2 then some (.vld3A3 (fieldsOf w))
    else none := by
  rw [decodeWord_a32, and_rowMask, h]
  obtain hs | hs | hs | hs := bitVec2_cases (w.extractLsb' 10 2) <;> rw [hs] <;> rfl

theorem decodeWord_t32_of_size {w : Word} (h : w &&& 0xFFB00300#32 = 0xF9A00200#32) : decodeWord .t32 w =
    if w.extractLsb' 10 2 = 0b00#2 then some (.vld3T1 (fieldsOf w))
    else if w.extractLsb' 10 2 = 0b01#2 then some (.vld3T2 (fieldsOf w))
    else if w.extractLsb' 10 2 = 0b10#2 then some (.vld3T3 (fieldsOf w))
    else none := by
  rw [decodeWord_t32, and_rowMask, h]
  obtain hs | hs | hs | hs := bitVec2_cases (w.extractLsb' 10 2) <;> rw [hs] <;> rfl

/-! ### The statements -/

/-- Settles O5: the row mask is the mask outside `size` with `size` added, and the element size is the encoding's. -/
theorem sizeFieldSelectsEncoding : Obligations.SizeFieldSelectsEncoding := by
  intro w v
  refine ⟨decodeWord_a32_of_size, decodeWord_t32_of_size, fun f i h => ?_⟩
  have hbytes := Instr.decoded_ebytes h
  refine ⟨?_, ?_, ?_⟩ <;> rintro (rfl | rfl) <;> simp [DecodeVars.esize, hbytes, Instr.ebytes]

/-- Settles O6, by the pseudocode of the three element sizes read against the table. -/
theorem indexAlignGivesLaneAndSpacing : Obligations.IndexAlignGivesLaneAndSpacing := fun f =>
  ⟨f.decode8_asTable, f.decode16_asTable, f.decode32_asTable, f.decode8_asTable, f.decode16_asTable,
    f.decode32_asTable⟩

/-- Settles O7: `n` and `m` are the fields, and validity depends on `Rn` only in whether it is 15. -/
theorem rmSelectsAddressingForm : Obligations.RmSelectsAddressingForm := by
  refine ⟨fun i v h => ?_, fun i => Instr.decoded_of_base15, fun mk hmk f rn hf hrn => ?_⟩
  · have hv := decoded_fieldVars h
    rw [hv.wback_eq, hv.registerIndex_eq]
    refine ⟨congrArg Fin.val hv.n_eq, congrArg Fin.val hv.m_eq, fun hn => valid_n_ne h (Fin.ext hn), ?_, ?_, ?_⟩
    · intro hm; simp [hm]
    · intro hm; simp [hm]
    · intro hpc hsp; simp [hpc, hsp]
  · rw [Instr.exists_valid_iff, Instr.exists_valid_iff]
    simp only [List.mem_cons, List.not_mem_nil, or_false] at hmk
    rcases hmk with rfl | rfl | rfl | rfl | rfl | rfl <;> exact and_congr (iff_of_true hf hrn) Iff.rfl

/-- Settles O8: the variables are the fields' own, and `d3` is past 31 exactly where `d` is past "d max". -/
theorem registerNumbersOfTheStructure : Obligations.RegisterNumbersOfTheStructure := by
  refine ⟨fun i v h => ?_, fun i v => ⟨valid_d3_le, Instr.unpredictableD3_d3_gt⟩⟩
  have hv := decoded_fieldVars h
  have hd : v.d = i.fields.firstReg := hv.d_eq.trans i.fields.toNat_dBit_append_vd
  have hle := i.fields.firstReg_le
  have hinc := hv.inc
  refine ⟨hd, hd ▸ hle, hinc, rfl, ?_⟩
  simp only [DecodeVars.d3, DecodeVars.d2]
  omega

end Sys2Proof
end

section
/-! SUPPORT. A valid form whose condition passes is the enable check and then the load; the check's two faults. Then the
statement about the check (40_vld3_one_lane.md rule R88). -/

namespace Sys2Proof.Machine

theorem checkEnabled_of_undefined {s : State} (h : advSIMDCheck s = .undefined) :
    checkEnabled s = .fault (.undefined s.pc) := by
  simp only [checkEnabled, h, raise]

theorem checkEnabled_of_hypTrap {s : State} (h : advSIMDCheck s = .hypTrap) :
    checkEnabled s = .fault (.hypTrap s.pc) := by
  simp only [checkEnabled, h, raise]

/-- Steps (2) to (7) of rule R86 for a valid form: the check comes first, and the load starts from the same state. -/
theorem exec_of_valid_of_passes {i : Instr} {v : DecodeVars} {s : State} (hv : i.decoded = .valid v)
    (hp : Passes i.set s) : exec i s = andThen (checkEnabled s) fun _ => loadStructure i.set v s := by
  rw [exec_eq_execute, hv, execute_of_passes hp, executePassed]

end Sys2Proof.Machine

namespace Sys2Proof
open Sys2Proof.Machine

/-- Settles O25: the check's answer is a fault, which ends the execution, or lets the load run. -/
theorem enableCheckDecides : Obligations.EnableCheckDecides := by
  intro i v s hv hp
  rw [exec_of_valid_of_passes hv hp]
  refine ⟨fun hu => ?_, fun ht => ?_, fun he => ?_⟩
  · rw [checkEnabled_of_undefined hu, andThen_fault]
  · rw [checkEnabled_of_hypTrap ht, andThen_fault]
  · rw [checkEnabled_of_enabled he, andThen_next]

end Sys2Proof
end

section
/-! SUPPORT. Words and bytes in both directions: the decoder of words as one equivalence over the row of the instruction,
and the layout of a pattern in memory with its inverse. Then the statements about the encoding. -/

namespace Sys2Proof
open Sys2Proof.Machine Sys2Proof.Laws.EncodedRow

/-! ### Words -/

/-- A pattern is decoded exactly when it has the constant bits of a row of its instruction set (rule R68). -/
theorem decodeWord_eq_some_iff {set : InstrSet} {w : Word} {i : Instr} :
    decodeWord set w = some i ↔
      i.set = set ∧ w &&& 0xFFB00F00#32 = rowPattern i ∧ i.fields = fieldsOf w := by
  constructor
  · intro h
    cases set with
    | a32 =>
      rw [decodeWord_a32] at h
      split_ifs at h with h1 h2 h3 <;> obtain rfl := Option.some.inj h
      · exact ⟨rfl, h1, rfl⟩
      · exact ⟨rfl, h2, rfl⟩
      · exact ⟨rfl, h3, rfl⟩
    | t32 =>
      rw [decodeWord_t32] at h
      split_ifs at h with h1 h2 h3 <;> obtain rfl := Option.some.inj h
      · exact ⟨rfl, h1, rfl⟩
      · exact ⟨rfl, h2, rfl⟩
      · exact ⟨rfl, h3, rfl⟩
  · rintro ⟨rfl, hrow, hfields⟩
    cases i <;> simp only [rowPattern, Instr.fields] at hrow hfields <;>
      simp [Instr.set, decodeWord_a32, decodeWord_t32, hrow, hfields]

/-- The bits under the row mask and the operand fields are all the bits of a word. -/
theorem eq_of_rowMask_of_fields {w w' : Word} (hrow : w &&& 0xFFB00F00#32 = w' &&& 0xFFB00F00#32)
    (hf : fieldsOf w = fieldsOf w') : w = w' := by
  simp only [fieldsOf, Fields.mk.injEq] at hf
  obtain ⟨hd, hn, hv, hia, hm⟩ := hf
  have cells (x : Word) : x = (x &&& 0xFFB00F00#32) ||| (x.extractLsb' 22 1).setWidth 32 <<< 22 |||
      (x.extractLsb' 16 4).setWidth 32 <<< 16 ||| (x.extractLsb' 12 4).setWidth 32 <<< 12 |||
      (x.extractLsb' 4 4).setWidth 32 <<< 4 ||| (x.extractLsb' 0 4).setWidth 32 := by
    apply BitVec.eq_of_getLsbD_eq
    intro j hj
    interval_cases j <;> simp
  rw [cells w, cells w', hrow, hd, hn, hv, hia, hm]

theorem decodeWord_encodeWord (i : Instr) : decodeWord i.set (encodeWord i) = some i := by
  obtain ⟨-, hrow, hfields⟩ := Laws.EncodedRow.all i
  exact decodeWord_eq_some_iff.mpr ⟨rfl, hrow, hfields.symm⟩

theorem encodeWord_of_decodeWord {set : InstrSet} {w : Word} {i : Instr} (h : decodeWord set w = some i) :
    encodeWord i = w := by
  obtain ⟨-, hrow, hfields⟩ := decodeWord_eq_some_iff.mp h
  obtain ⟨-, hrow', hfields'⟩ := Laws.EncodedRow.all i
  exact eq_of_rowMask_of_fields (hrow'.trans hrow.symm) (hfields'.trans hfields)

/-! ### Bytes -/

theorem patternOf_eq_of_layOut {set : InstrSet} {w : Word} {b0 b1 b2 b3 : Byte}
    (h : layOut set w = [b0, b1, b2, b3]) : patternOf set b0 b1 b2 b3 = w := by
  cases set
  all_goals
    simp only [layOut, List.cons.injEq, and_true] at h
    obtain ⟨rfl, rfl, rfl, rfl⟩ := h
    apply BitVec.eq_of_getLsbD_eq
    intro j hj
    simp only [patternOf, BitVec.getLsbD_append, BitVec.getLsbD_extractLsb']
    interval_cases j <;> simp

theorem layOut_patternOf (set : InstrSet) (b0 b1 b2 b3 : Byte) :
    layOut set (patternOf set b0 b1 b2 b3) = [b0, b1, b2, b3] := by
  cases set
  all_goals
    simp only [layOut, patternOf, List.cons.injEq, and_true]
    refine ⟨?_, ?_, ?_, ?_⟩
  all_goals
    apply BitVec.eq_of_getLsbD_eq
    intro j hj
    simp only [BitVec.getLsbD_append, BitVec.getLsbD_extractLsb']
    interval_cases j <;> simp

/-- Four bytes are decoded as the pattern they spell. -/
theorem decode_eq_ok_iff {set : InstrSet} {b0 b1 b2 b3 : Byte} {rest rest' : List Byte} {i : Instr} :
    decode set (b0 :: b1 :: b2 :: b3 :: rest) = .ok (i, rest') ↔
      decodeWord set (patternOf set b0 b1 b2 b3) = some i ∧ rest' = rest := by
  simp only [decode]
  cases decodeWord set (patternOf set b0 b1 b2 b3) with
  | some j => simp [eq_comm]
  | none => split_ifs <;> simp

/-- The bytes of an instruction spell its pattern, and nothing of what follows them is read. -/
theorem decode_encode_append (i : Instr) (rest : List Byte) : decode i.set (encode i ++ rest) = .ok (i, rest) := by
  obtain ⟨b0, b1, b2, b3, hb⟩ : ∃ b0 b1 b2 b3, encode i = [b0, b1, b2, b3] := by cases i <;> exact ⟨_, _, _, _, rfl⟩
  rw [hb]
  refine decode_eq_ok_iff.mpr ⟨?_, rfl⟩
  rw [patternOf_eq_of_layOut hb, decodeWord_encodeWord]

/-- Four bytes decode to an instruction exactly when they are its encoding, in its own instruction set. -/
theorem decode_eq_ok_iff_encode {set : InstrSet} {b0 b1 b2 b3 : Byte} {rest rest' : List Byte} {i : Instr} :
    decode set (b0 :: b1 :: b2 :: b3 :: rest) = .ok (i, rest') ↔
      i.set = set ∧ encode i = [b0, b1, b2, b3] ∧ rest' = rest := by
  constructor
  · intro h
    obtain ⟨hw, hrest⟩ := decode_eq_ok_iff.mp h
    have hset := decodeWord_set hw
    refine ⟨hset, ?_, hrest⟩
    rw [encode, encodeWord_of_decodeWord hw, hset, layOut_patternOf]
  · rintro ⟨rfl, he, rfl⟩
    have h := decode_encode_append i rest'
    rwa [he] at h

/-! ### UNDEFINED and valid words -/

theorem Instr.decoded_eq_undefined_iff (i : Instr) : i.decoded = .undefined ↔ i.tableCell = none := by
  obtain ⟨hcell, hd⟩ | ⟨index, inc, dMax, hcell, ⟨-, hd⟩ | ⟨-, -, hd⟩ | ⟨-, -, hd⟩⟩ := i.decoded_cases <;>
    simp [hcell, hd]

theorem indexTable8_eq_none_iff (ia : BitVec 4) :
    (indexTable8[ia.toNat]?).getD none = none ↔ ia.getLsbD 0 = true := by
  simp [indexTable8_eq]

theorem indexTable16_eq_none_iff (ia : BitVec 4) :
    (indexTable16[ia.toNat]?).getD none = none ↔ ia.getLsbD 0 = true := by
  simp [indexTable16_eq]

/-- The two low bits that must be zero, read together by the pseudocode and one by one by the table. -/
theorem extractLow2_ne_zero_iff : ∀ ia : BitVec 4,
    ia.extractLsb' 0 2 ≠ 0b00#2 ↔ ia.getLsbD 0 = true ∨ ia.getLsbD 1 = true := by decide

theorem indexTable32_eq_none_iff (ia : BitVec 4) :
    (indexTable32[ia.toNat]?).getD none = none ↔ ia.getLsbD 0 = true ∨ ia.getLsbD 1 = true := by
  rw [← extractLow2_ne_zero_iff]
  simp [indexTable32_eq]

theorem exists_cell_iff (p : Prop) [Decidable p] (cell : Nat × Nat × Nat) (d : Nat) :
    (∃ index inc dMax, (if p then none else some cell) = some (index, inc, dMax) ∧ d ≤ dMax) ↔
      ¬ p ∧ d ≤ cell.2.2 := by
  obtain ⟨index, inc, dMax⟩ := cell
  split_ifs with h <;> simp [h]

/-- "d max" is 29 for spacing 1 and 27 for spacing 2 (rule R65). -/
theorem dMax_of_spacing (b : Bool) : (31 - 2 * if b then 2 else 1) = if b then 27 else 29 := by
  cases b <;> rfl

/-- The checks of a form say what its cell of the table says: the must-be-zero bits, and "d max". -/
theorem Instr.wellFormed_iff (i : Instr) :
    i.wellFormed = true ↔
      i.fields.rn ≠ 15#4 ∧ ∃ index inc dMax, i.tableCell = some (index, inc, dMax) ∧ i.fields.firstReg ≤ dMax := by
  have key8 (f : Fields) : f.wellFormed8 = true ↔ f.rn ≠ 15#4 ∧ ∃ index inc dMax,
      (indexTable8[f.indexAlign.toNat]?).getD none = some (index, inc, dMax) ∧ f.firstReg ≤ dMax := by
    rw [indexTable8_eq, exists_cell_iff]
    simp [Fields.wellFormed8, Fields.baseOk, Fields.inRange, and_left_comm, and_assoc]
  have key16 (f : Fields) : f.wellFormed16 = true ↔ f.rn ≠ 15#4 ∧ ∃ index inc dMax,
      (indexTable16[f.indexAlign.toNat]?).getD none = some (index, inc, dMax) ∧ f.firstReg ≤ dMax := by
    rw [indexTable16_eq, exists_cell_iff, dMax_of_spacing]
    simp [Fields.wellFormed16, Fields.baseOk, Fields.inRange, and_left_comm, and_assoc]
  have key32 (f : Fields) : f.wellFormed32 = true ↔ f.rn ≠ 15#4 ∧ ∃ index inc dMax,
      (indexTable32[f.indexAlign.toNat]?).getD none = some (index, inc, dMax) ∧ f.firstReg ≤ dMax := by
    rw [indexTable32_eq, exists_cell_iff, dMax_of_spacing, extractLow2_ne_zero_iff]
    simp [Fields.wellFormed32, Fields.baseOk, Fields.inRange, and_left_comm, and_assoc]
  cases i with
  | vld3A1 f => exact key8 f
  | vld3A2 f => exact key16 f
  | vld3A3 f => exact key32 f
  | vld3T1 f => exact key8 f
  | vld3T2 f => exact key16 f
  | vld3T3 f => exact key32 f

/-! ### The statements -/

/-- Settles O1: the bytes of the encoding spell its pattern, and that pattern has the row's bits and the fields. -/
theorem decodeOfEncodeIsTheInstruction : Obligations.DecodeOfEncodeIsTheInstruction :=
  decode_encode_append

/-- Settles O2: the bits under the row mask and the operand fields leave no bit of the pattern over. -/
theorem encodeOfDecodeIsTheBytes : Obligations.EncodeOfDecodeIsTheBytes :=
  fun _ _ _ _ _ _ _ _ => decode_eq_ok_iff_encode.mp

/-- Settles O3: each row is one case of the decoder's equivalence. -/
theorem patternsAreThoseOfTheTable : Obligations.PatternsAreThoseOfTheTable := by
  intro w f
  simp only [decodeWord_eq_some_iff, Instr.set, Instr.fields, rowPattern, true_and, and_self]

/-- Settles O4: each word lies in its row. -/
theorem wordsOfTheSpecDecode : Obligations.WordsOfTheSpecDecode := by
  refine ⟨?_, ?_, ?_, ?_, ?_, ?_⟩ <;> exact decodeWord_eq_some_iff.mpr (by decide)

/-- Settles O9: UNDEFINED is the empty cell of the table, and that cell is empty by the must-be-zero bits. -/
theorem undefinedWordsDecode : Obligations.UndefinedWordsDecode := by
  intro f
  simp only [Instr.decoded_eq_undefined_iff]
  exact ⟨indexTable8_eq_none_iff _, indexTable16_eq_none_iff _, indexTable32_eq_none_iff _,
    indexTable8_eq_none_iff _, indexTable16_eq_none_iff _, indexTable32_eq_none_iff _⟩

/-- Settles O10: both readings are the table's cell with "d max" and a base register that is not 15. -/
theorem wellFormedIsValidByDecode : Obligations.WellFormedIsValidByDecode := fun i =>
  i.wellFormed_iff.trans i.exists_valid_iff.symm

end Sys2Proof
end

section
/-! SUPPORT. Conditions and `ITSTATE`; the bits of a lane, of an element read from memory, and of the views of the D
registers. Then the statements about them. -/

namespace Sys2Proof
open Sys2Proof.Machine

/-! ### The bits of an element in memory -/

/-- Bit `j` of byte `k` is bit `8*k + j` of the number the bytes spell. -/
theorem testBit_littleEndian {bs : List Byte} {k j : Nat} (hk : k < bs.length) (hj : j < 8) :
    (littleEndian bs).testBit (8 * k + j) = bs[k].getLsbD j := by
  induction bs generalizing k with
  | nil => simp at hk
  | cons b bs ih =>
    have hsplit : littleEndian (b :: bs) = 2 ^ 8 * littleEndian bs + b.toNat := by
      rw [littleEndian]; omega
    rw [hsplit, Nat.testBit_two_pow_mul_add _ b.isLt]
    cases k with
    | zero => rw [if_pos (by omega), Nat.mul_zero, Nat.zero_add]; rfl
    | succ k =>
      rw [if_neg (by omega), show 8 * (k + 1) + j - 8 = 8 * k + j by omega]
      exact ih (Nat.lt_of_succ_lt_succ hk)

theorem extractLsb'_littleEndian {n k : Nat} {bs : List Byte} (hk : k < bs.length) (hn : k < n) :
    (BitVec.ofNat (8 * n) (littleEndian bs)).extractLsb' (8 * k) 8 = bs[k] := by
  apply BitVec.eq_of_getLsbD_eq
  intro j hj
  rw [BitVec.getLsbD_extractLsb', BitVec.getLsbD_ofNat, testBit_littleEndian hk hj]
  simp only [hj, decide_true, Bool.true_and, show 8 * k + j < 8 * n by omega]

/-! ### The D register a number names -/

theorem dNum_inj {k j : Nat} (hk : k < 32) (hj : j < 32) : dNum k = dNum j ↔ k = j := by
  rw [dNum_eq_iff (by omega), dNum, Fin.val_ofNat, Nat.mod_eq_of_lt hj, eq_comm]

theorem d_setLane_dNum (s : State) {k j : Nat} (e esize : Nat) (w : BitVec esize) (hk : k < 32) (hj : j < 32) :
    (s.setLane k e esize w).d (dNum j) = if k = j then setElem (s.d (dNum k)) e esize w else s.d (dNum j) := by
  rw [State.d_setLane]
  simp only [dNum_inj hk hj]
  split
  · next h => rw [h]
  · rfl

/-! ### The statements -/

/-- Settles O11, flag by flag. -/
theorem conditionsOverTheFlags : Obligations.ConditionsOverTheFlags := by
  rintro ⟨n, z, c, v⟩
  revert n z c v
  decide

/-- Settles O12, value by value. -/
theorem itstateReadAndAdvance : Obligations.ItstateReadAndAdvance := by
  unfold Obligations.ItstateReadAndAdvance
  decide

/-- Settles O13: the value gives no condition, and the condition goes before everything else. -/
theorem badItstateIsRefused : Obligations.BadItstateIsRefused := by
  intro i s hset hlow hne
  obtain ⟨hread, -⟩ := itstateReadAndAdvance s.itstate
  rw [if_neg (by omega), if_neg hne] at hread
  rw [exec_eq_execute, hset, execute_of_badItstate hread]

/-- Settles O14: bit `j` lies below the lane, in it, or above it. -/
theorem setElemBits : Obligations.SetElemBits := by
  intro v e esize w j hfit hj
  have htop : (e + 1) * esize = e * esize + esize := Nat.succ_mul e esize
  rw [htop] at hfit ⊢
  simp only [setElem, BitVec.getLsbD_or, BitVec.getLsbD_and, BitVec.getLsbD_not, BitVec.getLsbD_shiftLeft,
    BitVec.getLsbD_setWidth, BitVec.getLsbD_allOnes, hj, decide_true, Bool.true_and]
  by_cases hlow : j < e * esize
  · simp [hlow, Nat.not_le.mpr hlow]
  · by_cases hhigh : j < e * esize + esize
    · have hlane : j - e * esize < esize := by omega
      simp [hlow, Nat.not_lt.mp hlow, hhigh, hlane, show j - e * esize < 64 by omega]
    · have hlane : esize ≤ j - e * esize := by omega
      simp [hlow, hhigh, Nat.not_lt.mpr hlane, BitVec.getLsbD_of_ge w _ hlane]

/-- Settles O15: the value spells the bytes in the order of their addresses, or in the reverse of it. -/
theorem elementBytesByByteOrder : Obligations.ElementBytesByByteOrder := by
  intro m a n k hk
  have hlen : k < (m.bytes a n).length := by rwa [m.length_bytes]
  have hrev : k < (m.bytes a n).reverse.length := by rwa [List.length_reverse]
  refine ⟨(extractLsb'_littleEndian hlen hk).trans (m.getElem_bytes a n k hlen),
    (extractLsb'_littleEndian hrev hk).trans ?_⟩
  rw [List.getElem_reverse, Memory.getElem_bytes, m.length_bytes]

/-- Settles O16: the registers of a view are named by their numbers. -/
theorem laneWritesAreSeenThroughTheViews : Obligations.LaneWritesAreSeenThroughTheViews := by
  intro s k e esize w hk
  refine ⟨fun q => ?_, fun j => ?_⟩
  · rw [State.q, d_setLane_dNum s e esize w hk (by omega), d_setLane_dNum s e esize w hk (by omega)]
  · rw [State.sReg, d_setLane_dNum s e esize w hk (by omega)]

end Sys2Proof
end

section
/-! SUPPORT. The state a valid form leaves, read field by field, and what no execution changes. Then the statements about
completion and the frames. -/

namespace Sys2Proof.Machine

/-! ### The loaded lanes -/

theorem esize_fits {i : Instr} {v : DecodeVars} (h : i.decoded = .valid v) : (v.index + 1) * v.esize ≤ 64 :=
  (decoded_fieldVars (.inl h)).lane

/-- The three lane writes meet three registers of the file, in ascending order of number. -/
theorem lanesLoaded_loaded {i : Instr} {v : DecodeVars} (h : i.decoded = .valid v) (set : InstrSet) (s : State) :
    LanesLoaded v s (loaded set v s) := by
  obtain ⟨-, -, hinc, hd2, hd3, -⟩ := registerNumbersOfTheStructure.1 i v (.inl h)
  have hle := valid_d3_le h
  have n1 (j : Fin 32) : dNum v.d = j ↔ j.val = v.d := dNum_eq_iff (by omega) j
  have n2 (j : Fin 32) : dNum v.d2 = j ↔ j.val = v.d2 := dNum_eq_iff (by omega) j
  have n3 (j : Fin 32) : dNum v.d3 = j ↔ j.val = v.d3 := dNum_eq_iff hle j
  simp only [LanesLoaded, loaded_d, lanesFromMemory, State.d_setLane, n1, n2, n3]
  refine ⟨fun j hj => ?_, fun j hj => ?_, fun j hj => ?_, fun j hj => ?_⟩
  · rw [if_neg (by omega), if_neg (by omega), if_pos hj]
  · rw [if_neg (by omega), if_pos hj, if_neg (by omega)]
  · rw [if_pos hj, if_neg (by omega), if_neg (by omega)]
  · rw [if_neg hj.2.2, if_neg hj.2.1, if_neg hj.1]

/-- Outside the lane every D register is kept, loaded or not. -/
theorem getLsbD_of_lanesLoaded {v : DecodeVars} {s t : State} (h : LanesLoaded v s t)
    (hfit : (v.index + 1) * v.esize ≤ 64) (r : Fin 32) {j : Nat} (hj : j < 64)
    (hout : j < v.index * v.esize ∨ (v.index + 1) * v.esize ≤ j) : (t.d r).getLsbD j = (s.d r).getLsbD j := by
  have hset (w : BitVec v.esize) : (setElem (s.d r) v.index v.esize w).getLsbD j = (s.d r).getLsbD j := by
    rw [setElemBits _ _ _ _ _ hfit hj, if_neg (by omega)]
  obtain ⟨h0, h1, h2, hkept⟩ := h
  by_cases e0 : r.val = v.d
  · rw [h0 r e0, hset]
  by_cases e1 : r.val = v.d2
  · rw [h1 r e1, hset]
  by_cases e2 : r.val = v.d3
  · rw [h2 r e2, hset]
  · rw [hkept r ⟨e0, e1, e2⟩]

theorem elem_setElem (v : DWord) {e esize : Nat} (w : BitVec esize) (hfit : (e + 1) * esize ≤ 64) :
    elem (setElem v e esize w) e esize = w := by
  apply BitVec.eq_of_getLsbD_eq
  intro j hj
  have htop : (e + 1) * esize = e * esize + esize := Nat.succ_mul e esize
  rw [elem, BitVec.getLsbD_extractLsb', setElemBits _ _ _ _ _ hfit (by omega), if_pos (by omega)]
  simp [hj]

/-- The lane of each of the three registers holds its element. -/
theorem elem_of_lanesLoaded {v : DecodeVars} {s t : State} (h : LanesLoaded v s t)
    (hfit : (v.index + 1) * v.esize ≤ 64) {k : Nat} {r : Fin 32} (hk : k < 3) (hr : r.val = v.d + k * v.inc) :
    elem (t.d r) v.index v.esize = element v s k := by
  obtain ⟨h0, h1, h2, -⟩ := h
  obtain rfl | rfl | rfl : k = 0 ∨ k = 1 ∨ k = 2 := by omega
  · rw [h0 r (by omega), elem_setElem _ _ hfit]
  · rw [h1 r (by rw [hr, DecodeVars.d2]; omega), elem_setElem _ _ hfit]
  · rw [h2 r (by rw [hr, DecodeVars.d3, DecodeVars.d2]; omega), elem_setElem _ _ hfit]

/-! ### The base register -/

theorem wback_eq_false_iff (v : DecodeVars) : v.wback = false ↔ v.m.val = 15 := by
  simp [DecodeVars.wback, Fin.ext_iff]

theorem writebackValue_of_13 {v : DecodeVars} (h : v.m.val = 13) (s : State) :
    writebackValue v s = s.r v.n + BitVec.ofNat 32 (3 * v.ebytes) := by
  rw [writebackValue, if_neg (by simp [DecodeVars.registerIndex, Fin.ext_iff, h])]

theorem writebackValue_of_index {v : DecodeVars} (h15 : v.m.val ≠ 15) (h13 : v.m.val ≠ 13) (s : State) :
    writebackValue v s = s.r v.n + s.r v.m := by
  rw [writebackValue, if_pos (by simp [DecodeVars.registerIndex, Fin.ext_iff, h15, h13])]

theorem writebackValue_lanesFromMemory (v : DecodeVars) (s : State) :
    writebackValue v (lanesFromMemory v s) = writebackValue v s := rfl

theorem writtenBack_loaded (set : InstrSet) (v : DecodeVars) (s : State) : WrittenBack v s (loaded set v s) := by
  have hwback (h : v.m.val ≠ 15) : v.wback = true := by simp [DecodeVars.wback, Fin.ext_iff, h]
  simp only [WrittenBack, loaded_r, writebackValue_lanesFromMemory]
  refine ⟨fun h => ?_, fun h => ?_, fun h15 h13 => ?_, fun j hj => ?_⟩
  · rw [if_neg (by simp [(wback_eq_false_iff v).mpr h])]
  · rw [if_pos ⟨hwback (by omega), trivial⟩, writebackValue_of_13 h]
  · rw [if_pos ⟨hwback h15, trivial⟩, writebackValue_of_index h15 h13]
  · rw [if_neg (fun hn => hj hn.2.symm)]

/-! ### Executions that go on -/

theorem exec_of_enabled {i : Instr} {v : DecodeVars} {s : State} (hv : i.decoded = .valid v) (hp : Passes i.set s)
    (he : advSIMDCheck s = .enabled) : exec i s = loadStructure i.set v s := by
  rw [exec_of_valid_of_passes hv hp, checkEnabled_of_enabled he, andThen_next]

theorem exec_of_canLoad {i : Instr} {v : DecodeVars} {s : State} (hv : i.decoded = .valid v) (hp : Passes i.set s)
    (hc : CanLoad v s) : exec i s = .next (loaded i.set v s) := by
  rw [exec_of_enabled hv hp hc.1, loadStructure_of_canLoad hc]

theorem exec_of_skipped {i : Instr} {v : DecodeVars} {s : State} (hv : i.decoded = .valid v) (hf : Fails i.set s)
    (he : advSIMDCheck s = .enabled) : exec i s = complete i.set s := by
  rw [exec_eq_execute, hv, execute_of_fails hf]
  simp only [executeSkipped, he]

/-- What an execution that goes on can have done, said of `exec`. -/
theorem exec_eq_next {i : Instr} {s t : State} (h : exec i s = .next t) :
    PcFits s ∧ ((∃ v, i.decoded = .valid v ∧ t = loaded i.set v s) ∨ t = s.advance i.set ∨
      t = s.tick.advance i.set ∨ ∃ v, i.decoded = .unpredictableD3 v ∧ t = (scramble v s).tick.advance i.set) :=
  execute_eq_next (exec_eq_execute i s ▸ h)

theorem advance_sameOutside (s : State) (set : InstrSet) : SameOutside s (s.advance set) := by
  simp [SameOutside]

theorem scramble_completed (v : DecodeVars) (s : State) (set : InstrSet) :
    Completed set s ((scramble v s).tick.advance set) := by
  cases set <;> simp [Completed]

theorem exec_sameOutside {i : Instr} {s t : State} (h : exec i s = .next t) : SameOutside s t := by
  obtain ⟨-, ⟨v, -, rfl⟩ | rfl | rfl | ⟨v, -, rfl⟩⟩ := exec_eq_next h
  · exact loaded_sameOutside i.set v s
  · exact advance_sameOutside s i.set
  · exact advance_sameOutside s.tick i.set
  · simp [SameOutside]

theorem exec_completed {i : Instr} {s t : State} (h : exec i s = .next t) : Completed i.set s t := by
  obtain ⟨-, ⟨v, -, rfl⟩ | rfl | rfl | ⟨v, -, rfl⟩⟩ := exec_eq_next h
  · exact loaded_completed i.set v s
  · exact advance_completed s i.set
  · exact advance_completed s.tick i.set
  · exact scramble_completed v s i.set

/-- The base register is written only with writeback, and no other register is. -/
theorem exec_keeps_r {i : Instr} {s t : State} (h : exec i s = .next t) {r : Fin 16}
    (hr : r.val ≠ i.fields.rn.toNat ∨ i.fields.rm = 15#4) : t.r r = s.r r := by
  have hkept {v : DecodeVars} (hv : i.decoded = .valid v ∨ i.decoded = .unpredictableD3 v) :
      ¬ (v.wback = true ∧ v.n = r) := by
    have hf := decoded_fieldVars hv
    rw [hf.wback_eq, hf.n_eq]
    rintro ⟨hw, rfl⟩
    exact hr.elim (· rfl) (by simpa using hw)
  obtain ⟨-, ⟨v, hv, rfl⟩ | rfl | rfl | ⟨v, hv, rfl⟩⟩ := exec_eq_next h
  · rw [loaded_r, if_neg (hkept (.inl hv))]
  · rfl
  · rfl
  · rw [State.advance_r, State.tick_r, r_scramble, if_neg (hkept (.inr hv))]

/-- A valid form that goes on has loaded its three lanes, or no D register is changed. -/
theorem exec_valid_d {i : Instr} {v : DecodeVars} {s t : State} (hv : i.decoded = .valid v)
    (h : exec i s = .next t) : LanesLoaded v s t ∨ ∀ r, t.d r = s.d r := by
  obtain ⟨-, ⟨u, hu, rfl⟩ | rfl | rfl | ⟨u, hu, -⟩⟩ := exec_eq_next h
  · obtain rfl : v = u := Decoded.valid.inj (hv.symm.trans hu)
    exact .inl (lanesLoaded_loaded hv i.set s)
  · exact .inr fun _ => rfl
  · exact .inr fun _ => rfl
  · rw [hv] at hu; cases hu

/-! ### The one-byte encodings -/

theorem indexTable8_of_zero : ∀ ia : BitVec 4, ia.getLsbD 0 = false →
    (indexTable8[ia.toNat]?).getD none = some (ia.toNat / 2, 1, 29) := by decide

theorem decode8_of_wellFormed8 {f : Fields} (h : f.wellFormed8 = true) :
    f.decode8 = .valid (f.vars 1 (f.indexAlign.toNat / 2) 1) := by
  simp only [Fields.wellFormed8, Fields.baseOk, Fields.inRange, Bool.and_eq_true, Bool.not_eq_true',
    decide_eq_true_eq] at h
  obtain ⟨⟨hzero, hbase⟩, hrange⟩ := h
  have htable := f.decode8_asTable
  rwa [indexTable8_of_zero _ hzero, DecodesAsTable, if_neg hbase, if_pos (by simpa using hrange)] at htable

theorem assemble_one_byte (bigEndian : Bool) (m : Memory) (a : Nat) :
    assemble bigEndian 1 (m.bytes a 1) = m.read a := by
  cases bigEndian <;> simp [assemble, Memory.bytes, littleEndian]

end Sys2Proof.Machine

namespace Sys2Proof
open Sys2Proof.Machine

/-- Settles O17: the form ends in the loaded state. -/
theorem validFormsLoadTheirStructure : Obligations.ValidFormsLoadTheirStructure := fun i v s hv hp hc =>
  ⟨loaded i.set v s, exec_of_canLoad hv hp hc, lanesLoaded_loaded hv i.set s, writtenBack_loaded i.set v s,
    loaded_completed i.set v s, loaded_sameOutside i.set v s, loaded_draws i.set v s⟩

/-- Settles O18: O17 with the variables of the one-byte decode, read lane by lane. -/
theorem eightBitFormsLoadThreeBytes : Obligations.EightBitFormsLoadThreeBytes := by
  intro f s i hi hwf hp hc
  have hv : i.decoded = .valid (f.vars 1 (f.indexAlign.toNat / 2) 1) := by
    obtain rfl | rfl := hi <;> exact decode8_of_wellFormed8 hwf
  obtain ⟨t, ht, hl, -⟩ := validFormsLoadTheirStructure i _ s hv hp hc
  refine ⟨t, ht, fun k r hk hr => ?_⟩
  refine ⟨?_, fun j hj hout => ?_⟩
  · refine (elem_of_lanesLoaded hl (esize_fits hv) hk ?_).trans ((assemble_one_byte _ _ _).trans ?_)
    · rw [Fields.vars, f.toNat_dBit_append_vd, Nat.mul_one, hr]
    · exact congrArg (fun n => s.mem.read ((s.r f.rn.toFin).toNat + n)) (Nat.mul_one k)
  · exact getLsbD_of_lanesLoaded hl (esize_fits hv) r hj (by simp only [Fields.vars, DecodeVars.esize]; omega)

/-- Settles O19: a skipped form that is enabled only completes. -/
theorem failedConditionOnlyCompletes : Obligations.FailedConditionOnlyCompletes := fun i v s hv hf he hpc =>
  ⟨s.advance i.set, by rw [exec_of_skipped hv hf he, complete_of_fits hpc], ⟨fun _ => rfl, fun _ => rfl⟩,
    advance_completed s i.set, advance_sameOutside s i.set, rfl⟩

/-- Settles O20: the loaded state reads both registers before it writes one. -/
theorem sameBaseAndIndexDoubles : Obligations.SameBaseAndIndexDoubles := by
  intro i v s hv hp hc hmn h13
  obtain ⟨t, ht, hl, ⟨-, -, hindex, -⟩, -⟩ := validFormsLoadTheirStructure i v s hv hp hc
  have h15 : v.m.val ≠ 15 := fun h => valid_n_ne (.inl hv) (hmn ▸ Fin.ext h)
  refine ⟨t, ht, hl, ?_⟩
  rw [hindex h15 h13, hmn, BitVec.toNat_add, Nat.two_mul]

/-- Settles O22, from what an execution that goes on can have done. -/
theorem frameOfEveryWord : Obligations.FrameOfEveryWord := by
  intro i s t h
  obtain ⟨-, -, hmem, -⟩ := exec_sameOutside h
  exact ⟨exec_sameOutside h, exec_completed h, fun r hr => exec_keeps_r h (.inl hr), fun hm r => exec_keeps_r h (.inr hm),
    fun a => by rw [hmem]⟩

/-- Settles O21: the frame of every word, and the lanes of a form that is loaded or skipped. -/
theorem frameOfValidForms : Obligations.FrameOfValidForms := by
  intro i v s t hv h
  obtain ⟨hout, hcompleted, hbase, hnone, hmem⟩ := frameOfEveryWord i s t h
  have hf := decoded_fieldVars (.inl hv)
  refine ⟨hout, hcompleted, fun r hr => ?_, fun r hr => ?_, fun r j hj hlane => ?_, hmem⟩
  · rw [hf.n_eq, hf.wback_eq] at hr
    obtain hn | hm := hr
    · exact hbase r fun e => hn (Fin.ext e)
    · exact hnone (by simpa using hm) r
  · exact (exec_valid_d hv h).elim (fun ⟨_, _, _, hkept⟩ => hkept r hr) (· r)
  · exact (exec_valid_d hv h).elim (fun hl => getLsbD_of_lanesLoaded hl (esize_fits hv) r hj hlane)
      (fun hd => by rw [hd r])

end Sys2Proof
end

section
/-! SUPPORT. The three element reads by their number. Then: what an execution does not look at. A change of the state that
meets only fields an execution does not read commutes with every operation, and so with the execution. -/

namespace Sys2Proof.Machine

theorem andThen_andThen {α β γ : Type} (o : Result α) (f : α → Result β) (g : β → Result γ) :
    andThen (andThen o f) g = andThen o fun a => andThen (f a) g := by
  cases o <;> rfl

/-! ### The element reads -/

/-- The read of element `k` of the structure (40_vld3_one_lane.md rule R89). -/
def readElement (v : DecodeVars) (s : State) (k : Nat) : Result (BitVec v.esize) :=
  memRead s (baseAddress v s + k * v.ebytes) v.ebytes

theorem loadLanes_of_not_fits {v : DecodeVars} {s : State} (h : ¬ Fits v s) :
    loadLanes v s = .refused .addrWrap := by
  have hpast : (s.r v.n).toNat + 3 * v.ebytes > 2 ^ 32 := Nat.lt_of_not_le h
  rw [loadLanes, if_pos hpast]

theorem loadLanes_of_fits {v : DecodeVars} {s : State} (h : Fits v s) :
    loadLanes v s =
      andThen (readElement v s 0) fun w0 =>
      andThen (readElement v s 1) fun w1 =>
      andThen (readElement v s 2) fun w2 =>
      .next (((s.setLane v.d v.index v.esize w0).setLane v.d2 v.index v.esize w1).setLane
        v.d3 v.index v.esize w2) := by
  have hbelow : ¬ (s.r v.n).toNat + 3 * v.ebytes > 2 ^ 32 := Nat.not_lt_of_le h
  simp only [readElement, Nat.zero_mul, Nat.one_mul, Nat.add_zero]
  rw [loadLanes, if_neg hbelow]
  rfl

/-! ### Changes of the state an execution does not look at -/

/-- The change `g` meets no field that the execution of a valid form reads or writes, memory apart. -/
structure Transparent (set : InstrSet) (g : State → State) : Prop where
  pc : ∀ s, (g s).pc = s.pc
  sys : ∀ s, (g s).sys = s.sys
  draws : ∀ s, (g s).draws = s.draws
  r : ∀ s i, (g s).r i = s.r i
  d : ∀ s i, (g s).d i = s.d i
  setR : ∀ s i x, (g s).setR i x = g (s.setR i x)
  setD : ∀ s i x, (g s).setD i x = g (s.setD i x)
  unknownDs : ∀ s, (g s).unknownDs = g s.unknownDs
  tick : ∀ s, (g s).tick = g s.tick
  advance : ∀ s, (g s).advance set = g (s.advance set)

/-- The same bytes of the structure in both states. -/
def SameElements (v : DecodeVars) (s s' : State) : Prop :=
  ∀ k, k < 3 → s'.mem.bytes (baseAddress v s + k * v.ebytes) v.ebytes =
    s.mem.bytes (baseAddress v s + k * v.ebytes) v.ebytes

theorem advSIMDCheck_congr {s s' : State} (h : s'.sys = s.sys) : advSIMDCheck s' = advSIMDCheck s := by
  rw [advSIMDCheck, h, advSIMDCheck]

theorem memAdmit_congr {s s' : State} (h : s'.sys = s.sys) (addr n : Nat) : memAdmit s' addr n = memAdmit s addr n := by
  rw [memAdmit, h, memAdmit]

theorem memRead_congr {s s' : State} {addr n : Nat} (hpc : s'.pc = s.pc) (hsys : s'.sys = s.sys)
    (hbytes : s'.mem.bytes addr n = s.mem.bytes addr n) : memRead s' addr n = memRead s addr n := by
  rw [memRead_eq, memRead_eq, memAdmit_congr hsys, strictAlign, strictAlign, hpc, hsys, hbytes]

section
variable {set : InstrSet} {g : State → State} (hg : Transparent set g) (s : State)
include hg

theorem Transparent.setLane_comm (k e esize : Nat) (w : BitVec esize) :
    (g s).setLane k e esize w = g (s.setLane k e esize w) := by
  rw [State.setLane, hg.d, hg.setD, State.setLane]

theorem Transparent.baseAddress_eq (v : DecodeVars) : baseAddress v (g s) = baseAddress v s := by
  rw [baseAddress, hg.r, baseAddress]

theorem Transparent.raise_comm (record : Word → Fault) :
    raise (g s) record = andThen (raise s record) fun t => .next (g t) := by
  rw [raise, hg.pc, raise, andThen_fault]

theorem Transparent.complete_comm : complete set (g s) = andThen (complete set s) fun t => .next (g t) := by
  simp only [complete, hg.pc, hg.advance]
  split <;> rfl

theorem Transparent.raiseUndefined_comm (b : Bool) :
    raiseUndefined b (g s) = andThen (raiseUndefined b s) fun t => .next (g t) := by
  simp only [raiseUndefined, advSIMDCheck_congr (hg.sys s)]
  split
  · exact hg.raise_comm s _
  · exact hg.raise_comm s _

theorem Transparent.faultOrComplete_comm (b : Bool) {o o' : Result State} (ho : o' = andThen o fun t => .next (g t)) :
    faultOrComplete b o' set (g s) = andThen (faultOrComplete b o set s) fun t => .next (g t) := by
  cases b with
  | true => exact ho
  | false => rw [faultOrComplete, hg.tick]; exact hg.complete_comm s.tick

theorem Transparent.scramble_comm (v : DecodeVars) : scramble v (g s) = g (scramble v s) := by
  simp only [scramble, hg.unknownDs, hg.setR, hg.draws]
  split <;> rfl

theorem Transparent.drawD3_comm (v : DecodeVars) :
    drawD3 set v (g s) = andThen (drawD3 set v s) fun t => .next (g t) := by
  simp only [drawD3, hg.draws, hg.r, cunpredictableD3, Config.d3Policy]
  split
  · exact hg.raise_comm s _
  · rw [hg.tick]; exact hg.complete_comm s.tick
  · rw [hg.scramble_comm, hg.tick]; exact hg.complete_comm _
  · exact hg.raise_comm s _

theorem Transparent.writeback_comm (v : DecodeVars) : writeback v (g s) = g (writeback v s) := by
  simp only [writeback, writebackValue, hg.r, hg.setR]
  split <;> rfl

theorem Transparent.executeSkipped_comm (dec : Decoded) :
    executeSkipped set dec (g s) = andThen (executeSkipped set dec s) fun t => .next (g t) := by
  cases dec with
  | undefined =>
    rw [executeSkipped, hg.draws]
    exact hg.faultOrComplete_comm s _ (hg.raiseUndefined_comm s _)
  | unpredictableN15 => rfl
  | unpredictableD3 v => rfl
  | valid v =>
    simp only [executeSkipped, advSIMDCheck_congr (hg.sys s), hg.draws]
    cases advSIMDCheck s with
    | enabled => exact hg.complete_comm s
    | undefined => exact hg.faultOrComplete_comm s _ (hg.raise_comm s _)
    | hypTrap => exact hg.faultOrComplete_comm s _ (hg.raise_comm s _)

variable {s} {v : DecodeVars} (hm : SameElements v s (g s))
include hm

theorem Transparent.readElement_eq {k : Nat} (hk : k < 3) : readElement v (g s) k = readElement v s k := by
  rw [readElement, hg.baseAddress_eq, memRead_congr (hg.pc s) (hg.sys s) (hm k hk), readElement]

theorem Transparent.loadLanes_comm : loadLanes v (g s) = andThen (loadLanes v s) fun t => .next (g t) := by
  have hfits : Fits v (g s) ↔ Fits v s := by rw [Fits, hg.baseAddress_eq]
  by_cases h : Fits v s
  · rw [loadLanes_of_fits h, loadLanes_of_fits (hfits.mpr h), hg.readElement_eq hm (by decide),
      hg.readElement_eq hm (by decide), hg.readElement_eq hm (by decide)]
    simp only [andThen_andThen, andThen_next, hg.setLane_comm]
  · rw [loadLanes_of_not_fits h, loadLanes_of_not_fits (mt hfits.mp h), andThen_refused]

theorem Transparent.loadStructure_comm :
    loadStructure set v (g s) = andThen (loadStructure set v s) fun t => .next (g t) := by
  simp only [loadStructure, hg.loadLanes_comm hm, andThen_andThen, andThen_next, hg.writeback_comm, hg.complete_comm]

end

section
variable {set : InstrSet} {g : State → State} (hg : Transparent set g) {s : State} {dec : Decoded}
  (hm : ∀ v, dec = .valid v → SameElements v s (g s))
include hg hm

theorem Transparent.executePassed_comm :
    executePassed set dec (g s) = andThen (executePassed set dec s) fun t => .next (g t) := by
  cases dec with
  | undefined => rw [executePassed, hg.draws]; exact hg.raiseUndefined_comm s _
  | unpredictableN15 => rfl
  | unpredictableD3 v => exact hg.drawD3_comm s v
  | valid v =>
    simp only [executePassed, checkEnabled, advSIMDCheck_congr (hg.sys s), raise, hg.pc]
    cases advSIMDCheck s with
    | enabled => exact hg.loadStructure_comm (hm v rfl)
    | undefined => rfl
    | hypTrap => rfl

end

/-- An execution commutes with a change it does not look at. -/
theorem Transparent.exec_comm {i : Instr} {g : State → State} (hg : Transparent i.set g) {s : State}
    (hc : condPassed i.set (g s) = condPassed i.set s)
    (hm : ∀ v, i.decoded = .valid v → SameElements v s (g s)) :
    exec i (g s) = andThen (exec i s) fun t => .next (g t) := by
  simp only [exec_eq_execute, execute, hc, andThen_andThen]
  congr 1
  funext passed
  cases passed with
  | true => exact hg.executePassed_comm hm
  | false => exact hg.executeSkipped_comm s _

theorem transparent_flags_itstate (fl : Flags) (it : BitVec 8) :
    Transparent .a32 fun s => { s with flags := fl, itstate := it } := by
  constructor <;> intros <;> rfl

theorem transparent_mem (set : InstrSet) (m : Memory) : Transparent set fun s => { s with mem := m } := by
  constructor <;> intros <;> rfl

/-- Bytes equal from the base address to the end of the structure are the same elements. -/
theorem sameElements_of_read {v : DecodeVars} {s s' : State}
    (h : ∀ a, baseAddress v s ≤ a → a < baseAddress v s + 3 * v.ebytes → s'.mem.read a = s.mem.read a) :
    SameElements v s s' := by
  intro k hk
  refine Memory.bytes_congr fun j hj => h _ (by omega) ?_
  have hend : (k + 1) * v.ebytes ≤ 3 * v.ebytes := Nat.mul_le_mul_right _ hk
  rw [Nat.succ_mul] at hend
  omega

end Sys2Proof.Machine

namespace Sys2Proof
open Sys2Proof.Machine

/-- Settles O23: the flags and `ITSTATE` are transparent to an A32 execution. -/
theorem a32IgnoresFlagsAndItstate : Obligations.A32IgnoresFlagsAndItstate := by
  intro i s fl it hset
  have hg := transparent_flags_itstate fl it
  rw [← hset] at hg
  exact hg.exec_comm (by rw [hset]; rfl) fun _ _ _ _ => rfl

/-- Settles O24: memory is transparent but for the elements. -/
theorem onlyTheStructureIsRead : Obligations.OnlyTheStructureIsRead := by
  intro i v s m hv hread
  refine (transparent_mem i.set m).exec_comm rfl fun u hu => sameElements_of_read ?_
  obtain rfl : v = u := Decoded.valid.inj (hv.symm.trans hu)
  exact hread

end Sys2Proof
end

section
/-! SUPPORT. Where an execution stops: the first element read that does not answer, and what every fault and refusal comes
from. Then the statements about faults, UNPREDICTABLE forms and refusals. -/

namespace Sys2Proof.Machine

/-! ### The first element that is not read -/

section
variable {v : DecodeVars} {s : State} (hf : Fits v s) {k : Nat} (hk : k < 3)
include hf hk

theorem element_end_le : baseAddress v s + k * v.ebytes + v.ebytes ≤ 2 ^ 32 := by
  have hend : (k + 1) * v.ebytes ≤ 3 * v.ebytes := Nat.mul_le_mul_right _ hk
  rw [Nat.succ_mul] at hend
  unfold Fits at hf
  omega

theorem readElement_of_ok (ha : Aligned v s) (hm : admitElement v s k = .ok) :
    readElement v s k = .next (element v s k) :=
  memRead_of_ok (element_end_le hf hk) (aligned_element ha k) hm

theorem readElement_of_abort (ha : Aligned v s) (hm : admitElement v s k = .abort) :
    readElement v s k =
      .fault (.dataAbort s.pc .other (BitVec.ofNat 32 (baseAddress v s + k * v.ebytes))) :=
  memRead_of_abort (element_end_le hf hk) (aligned_element ha k) hm

theorem readElement_of_notAdmitted (ha : Aligned v s) (hm : admitElement v s k = .notAdmitted) :
    readElement v s k = .refused .memNotAdmitted :=
  memRead_of_notAdmitted (element_end_le hf hk) (aligned_element ha k) hm

/-- The loads come to element `k` when the elements below it are read. -/
theorem loadLanes_reaches (hread : ∀ j, j < k → readElement v s j = .next (element v s j)) :
    ∃ f, loadLanes v s = andThen (readElement v s k) f := by
  rw [loadLanes_of_fits hf]
  obtain rfl | rfl | rfl : k = 0 ∨ k = 1 ∨ k = 2 := by omega
  · exact ⟨_, rfl⟩
  · rw [hread 0 (by decide), andThen_next]
    exact ⟨_, rfl⟩
  · rw [hread 0 (by decide), hread 1 (by decide), andThen_next, andThen_next]
    exact ⟨_, rfl⟩

end

theorem readElement_zero_of_misaligned {v : DecodeVars} {s : State} (hf : Fits v s) (hs : strictAlign s = true)
    (ha : baseAddress v s % v.ebytes ≠ 0) :
    readElement v s 0 = .fault (.dataAbort s.pc .alignment (s.r v.n)) := by
  have hend := element_end_le hf (k := 0) (by decide)
  rw [Nat.zero_mul, Nat.add_zero] at hend
  rw [readElement, Nat.zero_mul, Nat.add_zero, memRead_eq, if_neg (Nat.not_lt.mpr hend), if_pos ⟨hs, ha⟩,
    baseAddress, BitVec.ofNat_toNat, BitVec.setWidth_eq]
  rfl

theorem loadLanes_of_misaligned {v : DecodeVars} {s : State} (hf : Fits v s) (hs : strictAlign s = true)
    (ha : baseAddress v s % v.ebytes ≠ 0) :
    loadLanes v s = .fault (.dataAbort s.pc .alignment (s.r v.n)) := by
  obtain ⟨f, hload⟩ := loadLanes_reaches hf (k := 0) (by decide) nofun
  rw [hload, readElement_zero_of_misaligned hf hs ha, andThen_fault]

/-- An alignment fault of the loads is that of the first element. -/
theorem loadLanes_eq_alignment_fault {v : DecodeVars} {s : State} {pc addr : Word}
    (h : loadLanes v s = .fault (.dataAbort pc .alignment addr)) :
    strictAlign s = true ∧ baseAddress v s % v.ebytes ≠ 0 ∧ addr = s.r v.n := by
  have hf : Fits v s := by
    by_contra hf
    rw [loadLanes_of_not_fits hf] at h
    cases h
  obtain ⟨k, -, hr⟩ := loadLanes_eq_fault h
  obtain ⟨-, hs, ha⟩ | hother := memRead_eq_fault hr
  · rw [Nat.add_mul_mod_self_right] at ha
    rw [loadLanes_of_misaligned hf hs ha] at h
    cases h
    exact ⟨hs, ha, rfl⟩
  · cases hother

theorem loadLanes_fault_recordedPc {v : DecodeVars} {s : State} {r : Fault} (h : loadLanes v s = .fault r) :
    r.recordedPc = s.pc := by
  obtain ⟨k, -, hr⟩ := loadLanes_eq_fault h
  obtain ⟨rfl, -⟩ | rfl := memRead_eq_fault hr <;> rfl

/-! ### A valid form that is enabled -/

section
variable {i : Instr} {v : DecodeVars} {s : State} (hv : i.decoded = .valid v) (hp : Passes i.set s)
  (he : advSIMDCheck s = .enabled)
include hv hp he

theorem exec_of_loadLanes_fault {r : Fault} (h : loadLanes v s = .fault r) : exec i s = .fault r := by
  rw [exec_of_enabled hv hp he, loadStructure, h, andThen_fault]

theorem exec_of_loadLanes_refused {r : Refusal} (h : loadLanes v s = .refused r) : exec i s = .refused r := by
  rw [exec_of_enabled hv hp he, loadStructure, h, andThen_refused]

end

/-! ### Where faults and refusals come from -/

theorem loadStructure_eq_fault {set : InstrSet} {v : DecodeVars} {s : State} {r : Fault}
    (h : loadStructure set v s = .fault r) : loadLanes v s = .fault r := by
  obtain h | ⟨t, -, h⟩ := andThen_eq_fault.mp h
  · exact h
  · exact absurd h complete_ne_fault

/-- Every fault is `Undefined` or `HypTrap` of the decode or the enable check, a Data Abort drawn for `d3 > 31`, or that
of an element read. -/
theorem exec_eq_fault {i : Instr} {s : State} {r : Fault} (h : exec i s = .fault r) :
    r = .undefined s.pc ∨ r = .hypTrap s.pc ∨
    (∃ v kind addr, i.decoded = .unpredictableD3 v ∧ Passes i.set s ∧ r = .dataAbort s.pc kind addr) ∨
    ∃ v, i.decoded = .valid v ∧ Passes i.set s ∧ advSIMDCheck s = .enabled ∧ loadLanes v s = .fault r := by
  rw [exec_eq_execute] at h
  obtain e | ⟨-, e⟩ | e | ⟨-, e⟩ | e | e | ⟨v, hv, ⟨hp, e⟩ | ⟨-, e⟩⟩ | ⟨v, hv, hp, he, e⟩ :=
    execute_cases i.set i.decoded s <;> rw [e] at h
  · cases h
  · cases h
  · exact .inl (Host.Outcome.fault.inj h).symm
  · exact .inr (.inl (Host.Outcome.fault.inj h).symm)
  · exact absurd h complete_ne_fault
  · exact absurd h complete_ne_fault
  · obtain e | e | e | ⟨kind, offset, e⟩ := drawD3_cases i.set v s <;> rw [e] at h
    · exact .inl (Host.Outcome.fault.inj h).symm
    · exact absurd h complete_ne_fault
    · exact absurd h complete_ne_fault
    · exact .inr (.inr (.inl ⟨v, kind, _, hv, hp, (Host.Outcome.fault.inj h).symm⟩))
  · cases h
  · exact .inr (.inr (.inr ⟨v, hv, hp, he, loadStructure_eq_fault h⟩))

theorem loadStructure_eq_refused {set : InstrSet} {v : DecodeVars} {s : State} {r : Refusal}
    (h : loadStructure set v s = .refused r) : r = .addrWrap ∨ r = .memNotAdmitted ∨ r = .pcWrap := by
  obtain h | ⟨t, -, h⟩ := andThen_eq_refused.mp h
  · exact (loadLanes_eq_refused h).imp_right .inl
  · exact .inr (.inr (complete_eq_refused h))

theorem drawD3_eq_refused {set : InstrSet} {v : DecodeVars} {s : State} {r : Refusal}
    (h : drawD3 set v s = .refused r) : r = .pcWrap := by
  obtain e | e | e | ⟨kind, offset, e⟩ := drawD3_cases set v s <;> rw [e] at h
  · cases h
  · exact complete_eq_refused h
  · exact complete_eq_refused h
  · cases h

/-- The two admitted outcomes of a skipped word, whatever its fault. -/
theorem faultOrComplete_eq (b : Bool) (o : Result State) (set : InstrSet) (s : State) :
    faultOrComplete b o set s = o ∨ faultOrComplete b o set s = complete set s.tick := by
  cases b
  · exact .inr rfl
  · exact .inl rfl

end Sys2Proof.Machine

namespace Sys2Proof
open Sys2Proof.Machine

/-! ### Faults -/

/-- Settles O26: the decode comes before the enable check, whose answer `HypTrap` may go before it. -/
theorem undefinedWordsFault : Obligations.UndefinedWordsFault := by
  intro i s hd hp
  have hcases := raiseUndefined_eq_fault (Config.trapsFirst s.draws) s
  rw [exec_eq_execute, hd, execute_of_passes hp, executePassed]
  exact ⟨fun hne => hcases.resolve_right fun ht => hne ht.1, fun _ => hcases.imp_right And.right⟩

/-- Settles O27: the fault or completion, for each of the two kinds of word. -/
theorem failedConditionOnBadWords : Obligations.FailedConditionOnBadWords := by
  intro i s hf hpc hbad
  have hcompletes (h : exec i s = complete i.set s.tick) :
      ∃ t, exec i s = .next t ∧ SameRegisters s t ∧ Completed i.set s t ∧ SameOutside s t :=
    ⟨s.tick.advance i.set, h.trans (complete_of_fits hpc), ⟨fun _ => rfl, fun _ => rfl⟩,
      advance_completed s.tick i.set, advance_sameOutside s.tick i.set⟩
  have hexec := (exec_eq_execute i s).trans (execute_of_fails hf i.decoded)
  obtain hd | ⟨⟨v, hv⟩, hne⟩ := hbad
  · rw [hd, executeSkipped] at hexec
    obtain e | ⟨ht, e⟩ | e := faultOrComplete_cases (Config.skippedFaults s.draws) i.set
      (raiseUndefined_eq_fault (Config.trapsFirst s.draws) s)
    · exact .inl ⟨.inl hd, hexec.trans e⟩
    · exact .inr (.inl ⟨ht, hexec.trans e⟩)
    · exact .inr (.inr (hcompletes (hexec.trans e)))
  · rw [hv, executeSkipped] at hexec
    cases ha : advSIMDCheck s with
    | enabled => exact absurd ha hne
    | undefined =>
      rw [ha] at hexec
      obtain e | e := faultOrComplete_eq (Config.skippedFaults s.draws) (raise s .undefined) i.set s
      · exact .inl ⟨.inr rfl, hexec.trans e⟩
      · exact .inr (.inr (hcompletes (hexec.trans e)))
    | hypTrap =>
      rw [ha] at hexec
      obtain e | e := faultOrComplete_eq (Config.skippedFaults s.draws) (raise s .hypTrap) i.set s
      · exact .inr (.inl ⟨rfl, hexec.trans e⟩)
      · exact .inr (.inr (hcompletes (hexec.trans e)))

/-- Settles O28: the first element is the first to be read. -/
theorem strictAlignmentFaultsOnFirstElement : Obligations.StrictAlignmentFaultsOnFirstElement :=
  fun _ _ _ hv hp he hf hs ha => exec_of_loadLanes_fault hv hp he (loadLanes_of_misaligned hf hs ha)

/-- Settles O50, by where each fault comes from. -/
theorem alignmentFaultHasItsCause : Obligations.AlignmentFaultHasItsCause := by
  intro i s pc addr h
  obtain e | e | ⟨v, kind, a, hv, hp, -⟩ | ⟨v, hv, hp, he, hl⟩ := exec_eq_fault h
  · cases e
  · cases e
  · exact ⟨hp, .inr ⟨v, hv⟩⟩
  · obtain ⟨hs, ha, haddr⟩ := loadLanes_eq_alignment_fault hl
    exact ⟨hp, .inl ⟨v, hv, he, hs, ha, haddr⟩⟩

/-- Settles O29: of the causes of an alignment fault the form has none. -/
theorem noAlignmentFaultWithoutCause : Obligations.NoAlignmentFaultWithoutCause := by
  intro i v s pc addr hv hnone h
  obtain ⟨-, ⟨u, hu, -, hs, ha, -⟩ | ⟨u, hu⟩⟩ := alignmentFaultHasItsCause i s pc addr h
  · obtain rfl : v = u := Decoded.valid.inj (hv.symm.trans hu)
    obtain hone | hfalse := hnone
    · exact ha (by rw [hone, Nat.mod_one])
    · rw [hfalse] at hs
      cases hs
  · rw [hv] at hu
    cases hu

/-- Settles O30: the loads come to the element, and stop there as its read does. -/
theorem firstElementNotAdmittedDecides : Obligations.FirstElementNotAdmittedDecides := by
  intro i v s k hv hp he hf ha hk hok
  obtain ⟨f, hload⟩ := loadLanes_reaches hf hk fun j hj => readElement_of_ok hf (by omega) ha (hok j hj)
  refine ⟨fun hm => exec_of_loadLanes_fault hv hp he ?_, fun hm => exec_of_loadLanes_refused hv hp he ?_⟩
  · rw [hload, readElement_of_abort hf hk ha hm, andThen_fault]
  · rw [hload, readElement_of_notAdmitted hf hk ha hm, andThen_refused]

theorem exec_fault_recordedPc {i : Instr} {s : State} {r : Fault} (h : exec i s = .fault r) :
    r.recordedPc = s.pc := by
  obtain rfl | rfl | ⟨v, kind, a, -, -, rfl⟩ | ⟨v, -, -, -, hl⟩ := exec_eq_fault h
  · rfl
  · rfl
  · rfl
  · exact loadLanes_fault_recordedPc hl

/-- Settles O31: a step from an unmarked state faults only in the execution of the instruction at its `pc`. -/
theorem faultsRecordTheirPc : Obligations.FaultsRecordTheirPc := by
  refine ⟨fun i s r => exec_fault_recordedPc, fun s r hu h => ?_⟩
  rw [step, ready_of_unmarked hu, andThen_next] at h
  obtain h | ⟨i, -, h⟩ := andThen_eq_fault.mp h
  · exact absurd h fetchInstr_ne_fault
  · exact exec_fault_recordedPc h

/-! ### UNPREDICTABLE forms and refusals -/

/-- Settles O32: the decode is `n == 15`, which is refused whether the condition passes or fails. -/
theorem baseRegister15IsRefused : Obligations.BaseRegister15IsRefused := by
  intro i s hn hdef hcond
  have hd := (Instr.decoded_of_base15 hn).resolve_left hdef
  rw [exec_eq_execute, hd]
  obtain hp | hf := hcond
  · rw [execute_of_passes hp, executePassed]
  · rw [execute_of_fails hf, executeSkipped]

/-- Settles O33: two of the drawn outcomes are faults, and the other two complete within the frame of every word. -/
theorem registerListPastTheEnd : Obligations.RegisterListPastTheEnd := by
  intro i v s hv hp hpc
  have hfields := decoded_fieldVars (.inr hv)
  have hexec : exec i s = drawD3 i.set v s := by
    rw [exec_eq_execute, hv, execute_of_passes hp, executePassed]
  have hcompletes {u : State} (hu : PcFits u) (h : exec i s = complete i.set u) :
      ∃ t, exec i s = .next t ∧ Completed i.set s t ∧ SameOutside s t ∧
        ((∀ r, t.r r = s.r r) ∨ v.wback = true) ∧ (∀ r, r ≠ v.n → t.r r = s.r r) := by
    have ht := h.trans (complete_of_fits hu)
    refine ⟨_, ht, exec_completed ht, exec_sameOutside ht, ?_, fun r hr => exec_keeps_r ht (.inl fun e => hr ?_)⟩
    · by_cases hm : i.fields.rm = 15#4
      · exact .inl fun r => exec_keeps_r ht (.inr hm)
      · exact .inr (by simp [hfields.wback_eq, hm])
    · rw [hfields.n_eq]
      exact Fin.ext e
  obtain e | e | e | ⟨kind, offset, e⟩ := drawD3_cases i.set v s
  · exact .inl (hexec.trans e)
  · exact .inr (.inl (hcompletes (u := s.tick) hpc (hexec.trans e)))
  · exact .inr (.inl (hcompletes (by simpa [PcFits] using hpc) (hexec.trans e)))
  · have hbytes := hfields.ebytes
    exact .inr (.inr ⟨kind, _, Nat.mod_lt _ (by omega), hexec.trans e⟩)

/-- Settles O51: a skipped word with `d3 > 31` is refused before anything is drawn. -/
theorem skippedPastTheEndIsRefused : Obligations.SkippedPastTheEndIsRefused := by
  intro i v s hv hf
  rw [exec_eq_execute, hv, execute_of_fails hf, executeSkipped]

/-- Settles O34, behaviour by behaviour. -/
theorem eachBehaviourPastTheEnd : Obligations.EachBehaviourPastTheEnd := by
  intro set v s hpc hbytes
  have hscrambled : PcFits (scramble v s).tick := by simpa [PcFits] using hpc
  refine ⟨fun _ => rfl, rfl, ⟨s.tick.advance set, complete_of_fits hpc, ⟨fun _ => rfl, fun _ => rfl⟩,
      advance_completed s.tick set, advance_sameOutside s.tick set⟩,
    ⟨(scramble v s).tick.advance set, complete_of_fits hscrambled, scramble_completed v s set, by simp [SameOutside],
      fun r => by simp, fun hw => ?_, fun r hr => ?_⟩,
    fun kind offset => ⟨offset % (3 * v.ebytes), Nat.mod_lt _ (by omega), rfl⟩⟩
  · rw [State.advance_r, State.tick_r, r_scramble, if_pos ⟨hw, rfl⟩]
  · rw [State.advance_r, State.tick_r, r_scramble, if_neg]
    rintro ⟨hw, rfl⟩
    exact hr.elim (· rfl) (by simp [hw])

/-- Settles O35: the check of the whole structure comes before the first read. -/
theorem structurePastTheTopIsRefused : Obligations.StructurePastTheTopIsRefused :=
  fun _ _ _ hv hp he hf => exec_of_loadLanes_refused hv hp he (loadLanes_of_not_fits hf)

/-- Settles O36: completion comes last, with the `pc` of the start. -/
theorem pcAtTheTopIsRefused : Obligations.PcAtTheTopIsRefused := by
  intro i v s hv hpc hcond
  obtain ⟨hp, he, hf, ha, hm⟩ | ⟨hf, he⟩ := hcond
  · rw [exec_of_enabled hv hp he, loadStructure, loadLanes_of_canLoad hf ha hm, andThen_next]
    exact complete_of_not_fits (by simpa [PcFits] using hpc)
  · rw [exec_of_skipped hv hf he, complete_of_not_fits hpc]

/-- Settles O37, by what every execution can be. -/
theorem refusalsOfExecAreNamed : Obligations.RefusalsOfExecAreNamed := by
  intro i s r h
  rw [exec_eq_execute] at h
  obtain e | ⟨-, e⟩ | e | ⟨-, e⟩ | e | e | ⟨v, hv, ⟨-, e⟩ | ⟨hf, e⟩⟩ | ⟨v, -, -, -, e⟩ :=
    execute_cases i.set i.decoded s <;> rw [e] at h
  · exact .inl (Host.Outcome.refused.inj h).symm
  · exact .inr (.inl (Host.Outcome.refused.inj h).symm)
  · cases h
  · cases h
  · simp [complete_eq_refused h]
  · simp [complete_eq_refused h]
  · simp [drawD3_eq_refused h]
  · exact .inr (.inr (.inr (.inr (.inr ⟨(Host.Outcome.refused.inj h).symm, hf, v, hv⟩))))
  · obtain rfl | rfl | rfl := loadStructure_eq_refused h <;> simp

end Sys2Proof
end

section
/-! SUPPORT. The fetch in terms of the encoder; what a step changes, what it leaves behind when it stops, and runs of steps.
Then the statements about steps, the invariant, marks and runs. -/

namespace Sys2Proof.Machine

/-! ### The fetch -/

theorem Memory.bytes_eq_encode_iff (m : Memory) (a : Nat) (i : Instr) :
    m.bytes a 4 = encode i ↔ ∀ k, k < 4 → some (m.read (a + k)) = (encode i)[k]? := by
  have hlen : (m.bytes a 4).length = (encode i).length := by rw [m.length_bytes, (Laws.EncodedRow.all i).1]
  have hget {k : Nat} (hk : k < 4) : (m.bytes a 4)[k]? = some (m.read (a + k)) := by
    rw [List.getElem?_eq_getElem (by rwa [m.length_bytes]), m.getElem_bytes]
  constructor
  · intro h k hk
    rw [← h, hget hk]
  · intro h
    refine List.ext_getElem hlen fun k h1 h2 => Option.some.inj ?_
    rw [← List.getElem?_eq_getElem h1, ← List.getElem?_eq_getElem h2]
    rw [m.length_bytes] at h1
    exact (hget h1).trans (h k h1)

/-- Four bytes of memory decode to an instruction exactly when they are its encoding, in its own instruction set. -/
theorem decode_bytes_iff {set : InstrSet} {m : Memory} {a : Nat} {i : Instr} :
    (∃ rest, decode set (m.bytes a 4) = .ok (i, rest)) ↔
      i.set = set ∧ ∀ k, k < 4 → some (m.read (a + k)) = (encode i)[k]? := by
  rw [← m.bytes_eq_encode_iff]
  constructor
  · rintro ⟨rest, h⟩
    obtain ⟨hset, he, -⟩ := decode_eq_ok_iff_encode.mp h
    exact ⟨hset, he.symm⟩
  · rintro ⟨rfl, he⟩
    exact ⟨[], decode_eq_ok_iff_encode.mpr ⟨rfl, he.symm, rfl⟩⟩

theorem fetchInstr_set {s : State} {i : Instr} (h : fetchInstr s = .next i) : i.set = s.instrSet := by
  obtain ⟨-, -, rest, hd⟩ := fetchInstr_eq_next.mp h
  exact decode_set hd

theorem fetchInstr_of_misaligned {s : State} (h : s.pc.toNat % pcAlign s.instrSet ≠ 0) :
    fetchInstr s = .refused .pcMisaligned := if_pos h

theorem fetchInstr_of_pastTop {s : State} (ha : s.pc.toNat % pcAlign s.instrSet = 0)
    (h : s.pc.toNat + 4 > 2 ^ 32) : fetchInstr s = .refused .pcWrap := by
  rw [fetchInstr, if_neg (not_not_intro ha), if_pos h]

theorem fetchInstr_of_no_instr {s : State} (ha : s.pc.toNat % pcAlign s.instrSet = 0)
    (hle : s.pc.toNat + 4 ≤ 2 ^ 32)
    (h : ∀ i, ¬ ∃ rest, decode s.instrSet (s.mem.bytes s.pc.toNat 4) = .ok (i, rest)) :
    fetchInstr s = .refused .otherInstruction := by
  rw [fetchInstr, if_neg (not_not_intro ha), if_neg (Nat.not_lt.mpr hle)]
  cases hd : decode s.instrSet (s.mem.bytes s.pc.toNat 4) with
  | ok p => exact absurd ⟨p.2, hd⟩ (h p.1)
  | error e => rfl

/-! ### One step -/

theorem step_of_unmarked {s : State} (h : Unmarked s) : step s = andThen (fetchInstr s) fun i => exec i s := by
  rw [step, ready_of_unmarked h, andThen_next]

theorem step_of_faulted {s : State} {r : Fault} (h : s.faulted = some r) : step s = .fault r := by
  simp only [step, ready, h, andThen_fault]

theorem step_of_refused {s : State} {r : Refusal} (hf : s.faulted = none) (h : s.refused = some r) :
    step s = .refused r := by
  simp only [step, ready, hf, h, andThen_refused]

theorem pc_add_four {s : State} (h : PcFits s) : (s.pc + 4).toNat = s.pc.toNat + 4 := by
  rw [BitVec.toNat_add]
  exact Nat.mod_eq_of_lt h

theorem exec_pc {i : Instr} {s t : State} (h : exec i s = .next t) : t.pc.toNat = s.pc.toNat + 4 := by
  rw [(exec_completed h).1, pc_add_four (exec_eq_next h).1]

theorem exec_keeps_r15 {i : Instr} {s t : State} (h : exec i s = .next t) : t.r 15 = s.r 15 := by
  obtain ⟨-, ⟨v, hv, rfl⟩ | rfl | rfl | ⟨v, hv, rfl⟩⟩ := exec_eq_next h
  · rw [loaded_r, if_neg fun e => valid_n_ne (.inl hv) e.2]
  · rfl
  · rfl
  · rw [State.advance_r, State.tick_r, r_scramble, if_neg fun e => valid_n_ne (.inr hv) e.2]

/-- An aligned `pc` is aligned four bytes further, in either instruction set. -/
theorem aligned_add_four {set : InstrSet} {pc : Nat} (h : pc % pcAlign set = 0) : (pc + 4) % pcAlign set = 0 := by
  cases set <;> simp only [pcAlign] at h ⊢ <;> omega

/-- A run goes on when its first step and the run after that do. -/
theorem run_succ_eq_next {k : Nat} {s t : State} :
    Host.Core.run Sys2Proof.core (k + 1) s = .next t ↔
      ∃ u, step s = .next u ∧ Host.Core.run Sys2Proof.core k u = .next t := by
  rw [run_succ]
  exact andThen_eq_next

theorem exists_run_succ {k : Nat} {s : State} :
    (∃ t, Host.Core.run Sys2Proof.core (k + 1) s = .next t) ↔
      ∃ u, step s = .next u ∧ ∃ t, Host.Core.run Sys2Proof.core k u = .next t := by
  constructor
  · rintro ⟨t, ht⟩
    obtain ⟨u, hu, hrun⟩ := run_succ_eq_next.mp ht
    exact ⟨u, hu, t, hrun⟩
  · rintro ⟨u, hu, t, hrun⟩
    exact ⟨t, run_succ_eq_next.mpr ⟨u, hu, hrun⟩⟩

/-! ### Marked states -/

theorem runMarked_of_marked {s : State} (h : ¬ Unmarked s) (k : Nat) : runMarked k s = s := by
  induction k with
  | zero => rfl
  | succ k ih => rw [runMarked, settle_of_marked h, ih]

/-- The state that is left when a step from an unmarked state stops is marked. -/
theorem not_unmarked_settle_fault {s : State} (h : Unmarked s) (r : Fault) : ¬ Unmarked (settle s (.fault r)) := by
  simp [settle_fault h, Unmarked]

theorem not_unmarked_settle_refused {s : State} (h : Unmarked s) (r : Refusal) :
    ¬ Unmarked (settle s (.refused r)) := by
  simp [settle_refused h, Unmarked]

end Sys2Proof.Machine

namespace Sys2Proof
open Sys2Proof.Machine

/-! ### Steps -/

/-- Settles O38: an unmarked machine fetches and executes. -/
theorem stepRunsTheDecodedInstruction : Obligations.StepRunsTheDecodedInstruction := by
  intro s i rest hu ha hle hd
  rw [step_of_unmarked hu, fetchInstr_eq_next.mpr ⟨ha, hle, rest, hd⟩, andThen_next]

/-- Settles O39: the bytes of the encoding decode to the instruction. -/
theorem stepRunsTheBytesAtPc : Obligations.StepRunsTheBytesAtPc := by
  intro s i hu ha hle hset hbytes
  obtain ⟨rest, hd⟩ := decode_bytes_iff.mpr ⟨hset.symm, hbytes⟩
  exact stepRunsTheDecodedInstruction s i rest hu (hset ▸ ha) hle hd

/-- Settles O40: the checks of the fetch in their order, and bytes that no encoding is made of. -/
theorem fetchRefusals : Obligations.FetchRefusals := by
  intro s hu
  rw [step_of_unmarked hu]
  refine ⟨fun h => ?_, fun ha h => ?_, fun ha hle hno => ?_⟩
  · rw [fetchInstr_of_misaligned h, andThen_refused]
  · rw [fetchInstr_of_pastTop ha h, andThen_refused]
  · rw [fetchInstr_of_no_instr ha hle fun i hd => ?_, andThen_refused]
    obtain ⟨hset, hbytes⟩ := decode_bytes_iff.mp hd
    obtain ⟨k, hk, hne⟩ := hno i hset
    exact hne (hbytes k hk)

/-- Settles O42: the frame of the execution a step that goes on is made of. -/
theorem stepsKeepMemoryFlagsAndMode : Obligations.StepsKeepMemoryFlagsAndMode := by
  intro s t h
  obtain ⟨hu, i, -, he⟩ := step_eq_next.mp h
  obtain ⟨hflags, ht, hmem, hsys, hfaulted, hrefused⟩ := exec_sameOutside he
  exact ⟨hu, ⟨hfaulted.trans hu.1, hrefused.trans hu.2⟩, hmem, hflags, ht, hsys, exec_pc he⟩

/-- Settles O41: the bytes at `pc` are run, and the form completes, loaded or skipped. -/
theorem launchPremisesGiveProgress : Obligations.LaunchPremisesGiveProgress := by
  intro s i v hu ha hset hbytes hv he hpc hcond
  have hstep := stepRunsTheBytesAtPc s i hu ha hpc.le hset hbytes
  obtain ⟨t, ht⟩ : ∃ t, exec i s = .next t := by
    obtain ⟨hp, hc⟩ | hf := hcond
    · exact ⟨_, exec_of_canLoad hv hp hc⟩
    · exact ⟨_, (exec_of_skipped hv hf he).trans (complete_of_fits hpc)⟩
  obtain ⟨-, hunmarked, -, -, -, -, hnext⟩ := stepsKeepMemoryFlagsAndMode s t (hstep.trans ht)
  exact ⟨t, hstep.trans ht, hnext, hunmarked⟩

/-- Settles O43: the only register an execution writes is a base register that is not 15. -/
theorem stepsNeverWriteR15 : Obligations.StepsNeverWriteR15 := by
  intro s t h
  obtain ⟨-, i, -, he⟩ := step_eq_next.mp h
  exact exec_keeps_r15 he

/-! ### The invariant -/

/-- Settles O44: memory and `T` are kept, `pc` moves by four, and `ITSTATE` moves only in T32, as rule R26 accepts. -/
theorem stepsKeepTheInvariant : Obligations.StepsKeepTheInvariant := by
  rintro s t ⟨hmem, ha, hit, hclean⟩ h
  obtain ⟨-, -, hmem', -, ht, -, hpc⟩ := stepsKeepMemoryFlagsAndMode s t h
  obtain ⟨-, i, hfetch, he⟩ := step_eq_next.mp h
  obtain ⟨-, hitstate⟩ := exec_completed he
  rw [fetchInstr_set hfetch] at hitstate
  obtain ⟨-, -, haccepted⟩ := itstateReadAndAdvance s.itstate
  have hset : t.instrSet = s.instrSet := by rw [State.instrSet, ht, State.instrSet]
  refine ⟨hmem' ▸ hmem, ?_, ?_, fun hA32 => ?_⟩
  · rw [hset, hpc]
    exact aligned_add_four ha
  · rw [hitstate]
    split
    · exact haccepted hit
    · exact hit
  · rw [ht] at hA32
    rw [hitstate, if_neg (by simp [State.instrSet, hA32]), hclean hA32]

/-- Settles O45, field by field. -/
theorem resetHasTheInvariant : Obligations.ResetHasTheInvariant := ⟨State.reset_mem_wf, rfl, rfl, fun _ => rfl⟩

/-- Settles O46, mark by mark. -/
theorem resetMarksAreClear : Obligations.ResetMarksAreClear := ⟨rfl, rfl⟩

/-! ### Marks -/

/-- Settles O47: a marked state stops with its record, and is left as it is by every step. -/
theorem marksAreSticky : Obligations.MarksAreSticky := by
  refine ⟨fun s k hu => ⟨fun r h => ?_, fun r h => ?_⟩, fun s k hm => ⟨fun t h => ?_, runMarked_of_marked hm k, ?_⟩⟩
  · have hfaulted : (settle s (.fault r)).faulted = some r := by rw [settle_fault hu]
    rw [runMarked, h]
    exact ⟨runMarked_of_marked (not_unmarked_settle_fault hu r) k, hfaulted, by rw [settle_fault hu],
      step_of_faulted hfaulted⟩
  · have hrefused : (settle s (.refused r)).refused = some r := by rw [settle_refused hu]
    have hfaulted : (settle s (.refused r)).faulted = none := by rw [settle_refused hu]
    rw [runMarked, h]
    exact ⟨runMarked_of_marked (not_unmarked_settle_refused hu r) k, hrefused, hfaulted,
      step_of_refused hfaulted hrefused⟩
  · exact hm (step_eq_next.mp h).1
  · rw [runMarked_of_marked hm]
    exact fun _ _ hfinal => hm hfinal.2

/-- Settles O52: such a fault leaves all but `pc`, and the other mark was clear. -/
theorem preciseFaultsKeepTheState : Obligations.PreciseFaultsKeepTheState := by
  intro s pc r hu hr h
  refine ⟨Config.undefinedPc s.draws, ?_⟩
  have hrefused : s.refused = none := hu.2
  obtain rfl | rfl := hr <;> rw [h, settle_fault hu, afterFault, ← hrefused]

/-! ### Runs -/

/-- Settles O48, by induction on the number of steps. -/
theorem runsAdvanceByFour : Obligations.RunsAdvanceByFour := by
  intro k
  induction k with
  | zero =>
    intro s t h
    cases h
    exact ⟨rfl, rfl, rfl, rfl, rfl⟩
  | succ k ih =>
    intro s t h
    obtain ⟨u, hstep, hrun⟩ := run_succ_eq_next.mp h
    obtain ⟨-, -, hmem, hflags, ht, hsys, hpc⟩ := stepsKeepMemoryFlagsAndMode s u hstep
    obtain ⟨hpc', hmem', hflags', ht', hsys'⟩ := ih u t hrun
    exact ⟨by omega, hmem'.trans hmem, hflags'.trans hflags, ht'.trans ht, hsys'.trans hsys⟩

/-- Settles O49, by induction on the number of steps: a step that goes on moves the start by four, and after a step that
stops the mark stays. -/
theorem finalMeansEveryStepWasNext : Obligations.FinalMeansEveryStepWasNext := by
  intro k
  induction k with
  | zero => exact fun s hu => iff_of_true ⟨rfl, hu⟩ ⟨s, run_zero s⟩
  | succ k ih =>
    intro s hu
    rw [runMarked]
    refine Iff.trans ?_ exists_run_succ.symm
    cases h : step s with
    | next u =>
      obtain ⟨-, hunmarked, -, -, -, -, hpc⟩ := stepsKeepMemoryFlagsAndMode s u h
      have hend : s.pc.toNat + 4 * (k + 1) = u.pc.toNat + 4 * k := by omega
      rw [settle_next hu, Final, hend]
      constructor
      · exact fun hfinal => ⟨u, rfl, (ih u hunmarked).mp hfinal⟩
      · rintro ⟨_, ⟨⟩, hrun⟩
        exact (ih u hunmarked).mpr hrun
    | fault r =>
      have hmarked := not_unmarked_settle_fault hu r
      rw [runMarked_of_marked hmarked]
      exact iff_of_false (fun hfinal => hmarked hfinal.2) (by rintro ⟨_, ⟨⟩, -⟩)
    | refused r =>
      have hmarked := not_unmarked_settle_refused hu r
      rw [runMarked_of_marked hmarked]
      exact iff_of_false (fun hfinal => hmarked hfinal.2) (by rintro ⟨_, ⟨⟩, -⟩)

end Sys2Proof
end
